-- ==== Sys2Proof/Config.lean ====
section
/-! DEFINITION. The implementation parameters of spec/00_scope.md R5, each a named constant, and the one parameter the
spec leaves OPEN (`MAX_LINE`, D22). Every definition of the model takes a parameter from here, so that another reading is
substituted by changing its value here alone; only the statements, their terms in Safety.lean and the laws write the
values out. -/

namespace Sys2Proof.Config

/-- `WORD_BITS` (R5, D1): width of a word, a register, a stack entry. -/
@[simp] abbrev wordBits : Nat := 32
/-- `MEM_WORDS` (R5): memory capacity in words. -/
@[simp] abbrev memWords : Nat := 4096
/-- `NUM_REGS` (R5): the number of general registers. -/
@[simp] abbrev numRegs : Nat := 8
/-- `STACK_WORDS` (R5): capacity of the auxiliary stack. -/
@[simp] abbrev stackWords : Nat := 32
/-- `NUM_OPCODES` (R5): the legal opcode values are 0..20. -/
@[simp] abbrev numOpcodes : Nat := 21
/-- `OPC_HI` (R5, D2). -/
@[simp] abbrev opcHi : Nat := 31
/-- `OPC_LO` (R5). -/
@[simp] abbrev opcLo : Nat := 21
/-- `ARG0_HI` (R5). -/
@[simp] abbrev arg0Hi : Nat := 20
/-- `ARG0_LO` (R5). -/
@[simp] abbrev arg0Lo : Nat := 18
/-- `ARG1_HI` (R5). -/
@[simp] abbrev arg1Hi : Nat := 17
/-- `ARG1_LO` (R5). -/
@[simp] abbrev arg1Lo : Nat := 15
/-- `ARG2_HI` (R5). -/
@[simp] abbrev arg2Hi : Nat := 2
/-- `ARG2_LO` (R5). -/
@[simp] abbrev arg2Lo : Nat := 0
/-- `OFF_BITS` (R5): width of the offset field, whose sign bit is its top bit. -/
@[simp] abbrev offBits : Nat := 15
/-- `OFF_MIN` (R5): least offset the decoder produces and the encoder accepts. -/
@[simp] abbrev offMin : Int := -16384
/-- `OFF_MAX` (R5): greatest offset the decoder produces. -/
@[simp] abbrev offMax : Int := 16383
/-- `ENC_OFF_MAX` (R5, R65, D18): greatest offset the encoder accepts, the documented off-by-one. -/
@[simp] abbrev encOffMax : Int := 16384
/-- `BSR_TOP_BIT` (R5): highest bit BSR scans. -/
@[simp] abbrev bsrTopBit : Nat := 23
/-- `LABEL_MAX` (R5): longest label, in characters. -/
@[simp] abbrev labelMax : Nat := 6
/-- `SHIFT_MASK` (R5, D5): mask applied to SHL's shift amount. -/
@[simp] abbrev shiftMask : BitVec wordBits := 31

/-- `MAX_LINE` (R5, R74, D22): the longest accepted assembly line, excluding its terminator. The spec leaves it OPEN, so
it has no body: nothing proved depends on its value (DESIGN CHOICE, log 12). -/
opaque maxLine : Nat

end Sys2Proof.Config
end

