-- ==== Sys2Proof/Word.lean ====
section
/-! DEFINITION. The machine word of spec/00_scope.md R6 and its plainest readings (R6, R8). -/

namespace Sys2Proof

/-- A machine word (R6, D1): `WORD_BITS` bits, two's complement. -/
abbrev Word := BitVec Config.wordBits

/-- A register number (R15, R53), below `NUM_REGS`. -/
abbrev Reg := Fin Config.numRegs

/-- `sval` (R6): the signed integer a word denotes. -/
abbrev sval (w : Word) : Int := w.toInt

/-- `uval` (R6): the unsigned integer a word denotes. -/
abbrev uval (w : Word) : Nat := w.toNat

/-- `wrap` (R8): the word whose signed value is congruent to `n` modulo 2^32 (2^`WORD_BITS`). -/
abbrev wrap (n : Int) : Word := BitVec.ofInt Config.wordBits n

/-- The least signed value of a word (R6): -2^31. -/
abbrev wordMin : Int := -((2 ^ (Config.wordBits - 1) : Nat) : Int)

/-- The greatest signed value of a word (R6): 2^31 - 1. -/
abbrev wordMax : Int := ((2 ^ (Config.wordBits - 1) : Nat) : Int) - 1

end Sys2Proof
end

