-- ==== Sys2Proof/Syntax.lean ====
section
/-! DEFINITION. The instructions of spec/30_encoding.md R58, one constructor for each row of spec/opcode_table.json, and
the six formats of R56. -/

namespace Sys2Proof

/-- An instruction with its decoded operands. `a0`, `a1`, `a2` are the register fields arg0, arg1, arg2 (R53) and `off`
the signed offset (R54). A field the opcode's format does not use is absent (R56, R62). -/
inductive Instr where
  /-- ADD (opcode 0, R97). -/
  | add (a0 a1 a2 : Reg)
  /-- NAND (opcode 1, R98). -/
  | nand (a0 a1 a2 : Reg)
  /-- LW (opcode 2, R105). -/
  | lw (a0 a1 : Reg) (off : Int)
  /-- SW (opcode 3, R106). -/
  | sw (a0 a1 : Reg) (off : Int)
  /-- BEQ (opcode 4, R108). -/
  | beq (a0 a1 : Reg) (off : Int)
  /-- JALR (opcode 5, R109). -/
  | jalr (a0 a1 : Reg)
  /-- HALT (opcode 6, R110). -/
  | halt
  /-- NOOP (opcode 7, R111). -/
  | noop
  /-- IDIV (opcode 8, R117). -/
  | idiv
  /-- DEC (opcode 9, R99). -/
  | dec (a0 : Reg)
  /-- XADD (opcode 10, R100). -/
  | xadd (a0 a1 a2 : Reg)
  /-- SHL (opcode 11, R101). -/
  | shl (a0 a1 a2 : Reg)
  /-- OR (opcode 12, R102). -/
  | or (a0 a1 a2 : Reg)
  /-- NEG (opcode 13, R118). -/
  | neg
  /-- JMA (opcode 14, R112). -/
  | jma (a0 a1 : Reg) (off : Int)
  /-- JMNE (opcode 15, R114); the encoder fills its two register fields and the executor ignores them (R57). -/
  | jmne (a0 a1 : Reg) (off : Int)
  /-- CMP (opcode 16, R103). -/
  | cmp (a0 a1 : Reg)
  /-- JE (opcode 17, R113). -/
  | je (off : Int)
  /-- BSR (opcode 18, R104). -/
  | bsr (a0 a1 : Reg)
  /-- POP (opcode 19, R119). -/
  | pop (a0 : Reg)
  /-- PUSH (opcode 20, R120). -/
  | push (a0 : Reg)
deriving DecidableEq, Repr

/-- The six formats of R56. -/
inductive Format where
  | r3 | r2i | r2 | r1 | i | n
deriving DecidableEq, Repr

/-- The opcode value of an instruction (R58). -/
def Instr.opcode : Instr → Nat
  | .add _ _ _ => 0
  | .nand _ _ _ => 1
  | .lw _ _ _ => 2
  | .sw _ _ _ => 3
  | .beq _ _ _ => 4
  | .jalr _ _ => 5
  | .halt => 6
  | .noop => 7
  | .idiv => 8
  | .dec _ => 9
  | .xadd _ _ _ => 10
  | .shl _ _ _ => 11
  | .or _ _ _ => 12
  | .neg => 13
  | .jma _ _ _ => 14
  | .jmne _ _ _ => 15
  | .cmp _ _ => 16
  | .je _ => 17
  | .bsr _ _ => 18
  | .pop _ => 19
  | .push _ => 20

/-- The format of an instruction's opcode (R56, R58). -/
def Instr.format : Instr → Format
  | .add _ _ _ => .r3
  | .nand _ _ _ => .r3
  | .lw _ _ _ => .r2i
  | .sw _ _ _ => .r2i
  | .beq _ _ _ => .r2i
  | .jalr _ _ => .r2
  | .halt => .n
  | .noop => .n
  | .idiv => .n
  | .dec _ => .r1
  | .xadd _ _ _ => .r3
  | .shl _ _ _ => .r3
  | .or _ _ _ => .r3
  | .neg => .n
  | .jma _ _ _ => .r2i
  | .jmne _ _ _ => .r2i
  | .cmp _ _ => .r2
  | .je _ => .i
  | .bsr _ _ => .r2
  | .pop _ => .r1
  | .push _ => .r1

/-- The offset operand, for the formats R2I and I (R56, R64). -/
def Instr.offset? : Instr → Option Int
  | .add _ _ _ => none
  | .nand _ _ _ => none
  | .lw _ _ off => some off
  | .sw _ _ off => some off
  | .beq _ _ off => some off
  | .jalr _ _ => none
  | .halt => none
  | .noop => none
  | .idiv => none
  | .dec _ => none
  | .xadd _ _ _ => none
  | .shl _ _ _ => none
  | .or _ _ _ => none
  | .neg => none
  | .jma _ _ off => some off
  | .jmne _ _ off => some off
  | .cmp _ _ => none
  | .je off => some off
  | .bsr _ _ => none
  | .pop _ => none
  | .push _ => none

end Sys2Proof
end

