-- ==== Sys2Proof/WellFormed.lean ====
section
/-! DEFINITION. Which instructions a word can hold: the offset lies in the 15-bit signed range (spec/30_encoding.md R54).
A register number is in range by its type. -/

namespace Sys2Proof

/-- `off` is an offset the decoder produces (R54): [OFF_MIN, OFF_MAX]. -/
def offsetFits (off : Int) : Bool := decide (Config.offMin ≤ off) && decide (off ≤ Config.offMax)

/-- An instruction is well-formed when its offset, if its format has one, fits the field. -/
def Instr.wellFormed (i : Instr) : Bool :=
  match i.offset? with
  | none => true
  | some off => offsetFits off

end Sys2Proof
end

