-- ==== Sys2Proof/Decode.lean ====
section
/-! DEFINITION. The decoder of spec/30_encoding.md (R51 to R63) and, after it, the encoder (R64 to R73). -/

namespace Sys2Proof

/-- The field of bits `hi` down to `lo` of a word, read as an unsigned integer (R7). -/
def field (w : Word) (hi lo : Nat) : Nat := w.toNat / 2 ^ lo % 2 ^ (hi - lo + 1)

/-- The register a register field's value names (R53). -/
def regOf (n : Nat) : Reg := ⟨n % Config.numRegs, Nat.mod_lt n (by decide)⟩

/-- `sext15` (R54): the signed value of a raw offset field, whose top bit is the sign. -/
def sext15 (f : Nat) : Int :=
  if f.testBit (Config.offBits - 1) then (f : Int) - ((2 ^ Config.offBits : Nat) : Int) else (f : Int)

/-- What the decoder extracts from every word (R60). -/
structure Fields where
  /-- bits 31:21 -/
  opcode : Nat
  /-- whether the opcode is one of the 21 (R52, R61) -/
  legal : Bool
  arg0 : Reg
  arg1 : Reg
  arg2 : Reg
  /-- the sign-extended offset, decoded unconditionally (R60) -/
  off : Int
deriving DecidableEq, Repr

/-- `Decode` (R60): total on words. -/
def decodeFields (w : Word) : Fields where
  opcode := field w Config.opcHi Config.opcLo
  legal := decide (field w Config.opcHi Config.opcLo < Config.numOpcodes)
  arg0 := regOf (field w Config.arg0Hi Config.arg0Lo)
  arg1 := regOf (field w Config.arg1Hi Config.arg1Lo)
  arg2 := regOf (field w Config.arg2Hi Config.arg2Lo)
  off := sext15 (field w (Config.offBits - 1) 0)

/-- Why a word is no instruction. -/
inductive DecodeError where
  /-- The opcode field holds a value outside 0..20 (R61); the executor reports it as ILLEGAL_OPCODE (R86). -/
  | illegalOpcode (opcode : Nat)
deriving DecidableEq, Repr

/-- The instruction the extracted fields stand for: an opcode that is not legal is none (R61); a legal one is read by the
opcode map of R58 with the operands of its format (R56). Bits outside the format's operands are dropped (R62). -/
def instrOfFields (d : Fields) : Except DecodeError Instr :=
  if d.legal = false then .error (.illegalOpcode d.opcode) else
  match d.opcode with
  | 0 => .ok (.add d.arg0 d.arg1 d.arg2)
  | 1 => .ok (.nand d.arg0 d.arg1 d.arg2)
  | 2 => .ok (.lw d.arg0 d.arg1 d.off)
  | 3 => .ok (.sw d.arg0 d.arg1 d.off)
  | 4 => .ok (.beq d.arg0 d.arg1 d.off)
  | 5 => .ok (.jalr d.arg0 d.arg1)
  | 6 => .ok .halt
  | 7 => .ok .noop
  | 8 => .ok .idiv
  | 9 => .ok (.dec d.arg0)
  | 10 => .ok (.xadd d.arg0 d.arg1 d.arg2)
  | 11 => .ok (.shl d.arg0 d.arg1 d.arg2)
  | 12 => .ok (.or d.arg0 d.arg1 d.arg2)
  | 13 => .ok .neg
  | 14 => .ok (.jma d.arg0 d.arg1 d.off)
  | 15 => .ok (.jmne d.arg0 d.arg1 d.off)
  | 16 => .ok (.cmp d.arg0 d.arg1)
  | 17 => .ok (.je d.off)
  | 18 => .ok (.bsr d.arg0 d.arg1)
  | 19 => .ok (.pop d.arg0)
  | 20 => .ok (.push d.arg0)
  | op => .error (.illegalOpcode op)

/-- The instruction a word holds, or why it holds none. -/
def decode (w : Word) : Except DecodeError Instr := instrOfFields (decodeFields w)

/-- What the decoder reads from an instruction numbered as spec/opcode_table.json numbers it. An instruction is one
32-bit word (R51), so the low `nbits` bits of `w`, with zeros above, are that word. -/
def decodeTableWord (nbits w : Nat) : Option Instr :=
  match decode (BitVec.ofNat Config.wordBits (w % 2 ^ nbits)) with
  | .ok i => some i
  | .error _ => none

/-! ### The encoder -/

/-- Why the encoder refuses its inputs. -/
inductive EncodeError where
  /-- RANGE_ERROR (R65): the offset lies outside the accepted range. -/
  | rangeError (v : Int)
deriving DecidableEq, Repr

/-- The low 15 bits (`OFF_BITS`) of an offset's two's complement (R65). -/
def maskOffset (v : Int) : Nat := (v % ((2 ^ Config.offBits : Nat) : Int)).toNat

/-- `EncOffset` (R65) with the parameter `ENC_OFF_MAX` as an argument, so that both readings of R67 can be stated. -/
def encOffsetWith (encOffMax v : Int) : Except EncodeError Nat :=
  if Config.offMin ≤ v ∧ v ≤ encOffMax then .ok (maskOffset v) else .error (.rangeError v)

/-- `EncOffset` (R65) with this hardware's `ENC_OFF_MAX`. -/
def encOffset (v : Int) : Except EncodeError Nat := encOffsetWith Config.encOffMax v

/-- The packing sum of R66, each field at its lowest bit. -/
def pack (op a0 a1 low : Nat) : Word :=
  BitVec.ofNat Config.wordBits (op * 2 ^ Config.opcLo + a0 * 2 ^ Config.arg0Lo + a1 * 2 ^ Config.arg1Lo + low)

/-- The low part of an R3 word: arg2 at its lowest bit (R66, R53). -/
def packArg2 (a2 : Reg) : Nat := a2.val * 2 ^ Config.arg2Lo

/-- `Encode` (R66) without its range check: the word of an instruction, any offset masked (DESIGN CHOICE, log 20); the
encoder with its check is `encodeChecked`. Bits its format does not use are 0 (R62, D3). -/
def encode : Instr → Word
  | .add a b c => pack 0 a b (packArg2 c)
  | .nand a b c => pack 1 a b (packArg2 c)
  | .lw a b v => pack 2 a b (maskOffset v)
  | .sw a b v => pack 3 a b (maskOffset v)
  | .beq a b v => pack 4 a b (maskOffset v)
  | .jalr a b => pack 5 a b 0
  | .halt => pack 6 0 0 0
  | .noop => pack 7 0 0 0
  | .idiv => pack 8 0 0 0
  | .dec a => pack 9 a 0 0
  | .xadd a b c => pack 10 a b (packArg2 c)
  | .shl a b c => pack 11 a b (packArg2 c)
  | .or a b c => pack 12 a b (packArg2 c)
  | .neg => pack 13 0 0 0
  | .jma a b v => pack 14 a b (maskOffset v)
  | .jmne a b v => pack 15 a b (maskOffset v)
  | .cmp a b => pack 16 a b 0
  | .je v => pack 17 0 0 (maskOffset v)
  | .bsr a b => pack 18 a b 0
  | .pop a => pack 19 a 0 0
  | .push a => pack 20 a 0 0

/-- `Encode` (R65, R66) with `ENC_OFF_MAX` as an argument: the word, or RANGE_ERROR. -/
def encodeCheckedWith (encOffMax : Int) (i : Instr) : Except EncodeError Word :=
  match i.offset? with
  | none => .ok (encode i)
  | some v =>
    match encOffsetWith encOffMax v with
    | .ok _ => .ok (encode i)
    | .error e => .error e

/-- `Encode` (R65, R66) of this hardware. -/
def encodeChecked (i : Instr) : Except EncodeError Word := encodeCheckedWith Config.encOffMax i

/-- The offset of a symbolic target `target` in a PC-relative instruction at address `addr` (R68). -/
def relativeOffset (target addr : Nat) : Int := (target : Int) - (addr : Int) - 1

end Sys2Proof
end

