-- ==== Sys2Proof/Machine/Arith.lean ====
section
/-! DEFINITION. The arithmetic of spec/00_scope.md R8 and spec/41_alu.md R96: exact integers, narrowed once by `wrap`. -/

namespace Sys2Proof.Machine

/-- `a +w b` (R8). -/
def addW (a b : Word) : Word := wrap (sval a + sval b)

/-- `a -w b` (R8). -/
def subW (a b : Word) : Word := wrap (sval a - sval b)

/-- `-w a` (R8). -/
def negW (a : Word) : Word := wrap (-sval a)

/-- `~(a & b)` (R98). -/
def nandW (a b : Word) : Word := ~~~(a &&& b)

/-- `a | b` (R102). -/
def orW (a b : Word) : Word := a ||| b

/-- SHL's amount (R101, D5): the low bits of the amount register that SHIFT_MASK keeps. -/
def shiftAmount (b : Word) : Nat := uval (b &&& Config.shiftMask)

/-- SHL's result (R101). -/
def shlW (a b : Word) : Word := wrap (sval a * 2 ^ shiftAmount b)

/-- `tdiv` (R8) of two words, as a word: division rounding toward zero. -/
def tdivW (n d : Word) : Word := wrap ((sval n).tdiv (sval d))

/-- The scan of R104 from bit `n - 1` down to bit 0: the first set bit met. -/
def highestBitBelow (v : Word) : Nat → Option Nat
  | 0 => none
  | n + 1 => if v.getLsbD n then some n else highestBitBelow v n

/-- BSR's scan of bits BSR_TOP_BIT..0 (R104). -/
def bsrScan (v : Word) : Option Nat := highestBitBelow v (Config.bsrTopBit + 1)

/-- BSR's result (R104): the index found, or -1. -/
def bsrResult (v : Word) : Word :=
  match bsrScan v with
  | some i => BitVec.ofNat Config.wordBits i
  | none => wrap (-1)

end Sys2Proof.Machine
end

