-- ==== Sys2Proof/Machine/Flags.lean ====
section
/-! DEFINITION. The three computations of the zero flag (spec/10_state.md R21, R22): CMP, NEG and BSR. Each keeps its own
polarity. -/

namespace Sys2Proof.Machine

/-- CMP's Z (R103): the wrapped difference is 0. -/
def cmpZ (a b : Word) : Bool := decide (subW a b = 0)

/-- NEG's Z (R118): the negated value is 0. -/
def negZ (result : Word) : Bool := decide (result = 0)

/-- BSR's Z (R104): a set bit was found. -/
def bsrZ (v : Word) : Bool := (bsrScan v).isSome

end Sys2Proof.Machine
end

