-- ==== Sys2Proof/Machine/State.lean ====
section
/-! DEFINITION. The complete state of spec/10_state.md R33 as plain data, its reset values (R135), and the reasons a step
of the model can stop. -/

namespace Sys2Proof.Machine

/-- The run status (R28). -/
inductive Status where
  | idle | running | halted | faulted
deriving DecidableEq, Repr

/-- The status codes of R28 (D8). -/
def Status.code : Status → Nat
  | .idle => 0
  | .running => 1
  | .halted => 2
  | .faulted => 3

/-- The fault causes of spec/60_exceptions.md R122. -/
inductive FaultCause where
  | none | badPc | illegalOpcode | memOutOfRange | stackOverflow | stackUnderflow | divByZero | divOverflow
deriving DecidableEq, Repr

/-- The cause codes of R122 (D8). -/
def FaultCause.code : FaultCause → Nat
  | .none => 0
  | .badPc => 1
  | .illegalOpcode => 2
  | .memOutOfRange => 3
  | .stackOverflow => 4
  | .stackUnderflow => 5
  | .divByZero => 6
  | .divOverflow => 7

/-- Memory (R27): the words that are not 0, as (address, word) pairs with addresses strictly rising; an unlisted
address holds 0, the reset value of R27. The word is the only unit (spec/20_memory.md R34, R35), so a cell is a word
(DEDUCED, log 4). `Memory.wf` is the canonical form. -/
abbrev Memory := List (Nat × Word)

/-- The canonical form from address `lo` on: addresses rising from `lo`, inside the array (R37), no listed zero. -/
def Memory.wfFrom (lo : Nat) : Memory → Bool
  | [] => true
  | (a, v) :: rest => decide (lo ≤ a) && decide (a < Config.memWords) && decide (v ≠ 0) && Memory.wfFrom (a + 1) rest

/-- The canonical form of a memory. -/
def Memory.wf (m : Memory) : Bool := Memory.wfFrom 0 m

/-- The executor's state: the record of R33, field for field. -/
structure State where
  /-- the program counter (R18), a 32-bit signed word address -/
  pc : Word
  /-- the general registers r0..r7 (R15, R16) -/
  reg : Vector Word Config.numRegs
  /-- the zero flag Z (R21) -/
  z : Bool
  /-- the stack pointer (R23), in [0, 32]; 32 is empty -/
  sp : Nat
  /-- the auxiliary stack's entries (R23) -/
  stk : Vector Word Config.stackWords
  /-- the memory array (R27) -/
  mem : Memory
  /-- the run status (R28) -/
  status : Status
  /-- the recorded fault cause (R29) -/
  cause : FaultCause
  /-- the recorded fault address (R29), a 32-bit signed integer -/
  faddr : Word
  /-- instructions completed (R30), unbounded as R30 allows (DESIGN CHOICE, log 7) -/
  count : Nat
deriving DecidableEq, Repr

/-- Why a step of the model stops with no next state. It has no constructor: every execution fault of the spec has an
effect the spec states in full (R91: the status, the cause and the address are recorded), so the machine takes it as a
next state with status FAULTED, and nothing else stops it (DESIGN CHOICE, log 1). Nobody raises it; safe. -/
inductive Fault where
deriving DecidableEq, Repr

/-- Why an instruction has no meaning. -/
inductive Refusal where
  /-- An arm of `exec` whose instruction has no meaning yet. No arm raises it: all 21 have their meaning. Safe. -/
  | notModelled (mnemonic : String)
deriving DecidableEq, Repr

/-- The state right after reset: the table of spec/70_reset_and_hazards.md R135. -/
def State.reset : State where
  pc := 0
  reg := Vector.replicate Config.numRegs 0
  z := false
  sp := Config.stackWords
  stk := Vector.replicate Config.stackWords 0
  mem := []
  status := .idle
  cause := .none
  faddr := 0
  count := 0

end Sys2Proof.Machine
end

