-- ==== Sys2Proof/Machine/Ops.lean ====
section
/-! DEFINITION. The named operations over registers, memory, the stack and the run record: spec/00_scope.md R8,
spec/20_memory.md R38 and R39, spec/44_stack.md R115 and R116, and the common part of every step, spec/40_cycle.md R87 to
R91. -/

namespace Sys2Proof.Machine

/-! ### Registers, program counter, flag -/

/-- `x[r]` (R8): the stored cell, r0 included (R16). -/
def State.getReg (s : State) (r : Reg) : Word := s.reg[r.val]

/-- `x[r] <- v` (R8): a write to r0 is stored too; `State.complete` forces it away (R16, R88). -/
def State.setReg (s : State) (r : Reg) (v : Word) : State := { s with reg := s.reg.set r.val v }

/-- `pc <- t` (R8). -/
def State.setPc (s : State) (t : Word) : State := { s with pc := t }

/-- `Z <- b` (R8). -/
def State.setZ (s : State) (b : Bool) : State := { s with z := b }

/-- The run status is written by HALT (R89), a fault (R90) and the host (R138). -/
def State.setStatus (s : State) (st : Status) : State := { s with status := st }

/-! ### Memory -/

/-- The word at an address of the array: a listed value, else 0 (R27). -/
def Memory.read : Memory → Nat → Word
  | [], _ => 0
  | (b, w) :: rest, a => if b = a then w else Memory.read rest a

/-- `m[a] <- v`, keeping the canonical form: a word that becomes 0 is no longer listed. -/
def Memory.write : Memory → Nat → Word → Memory
  | [], a, v => if v = 0 then [] else [(a, v)]
  | (b, w) :: rest, a, v =>
    if a < b then (if v = 0 then (b, w) :: rest else (a, v) :: (b, w) :: rest)
    else if a = b then (if v = 0 then rest else (a, v) :: rest)
    else (b, w) :: Memory.write rest a v

/-- Words stored at consecutive addresses from `a` (R136). -/
def Memory.writeAll : Memory → Nat → List Word → Memory
  | m, _, [] => m
  | m, a, w :: ws => Memory.writeAll (Memory.write m a w) (a + 1) ws

/-- The bounds check of R37 on an integer address. -/
def inMemory (a : Int) : Bool := decide (0 ≤ a) && decide (a < (Config.memWords : Int))

/-- `MemRead` (R38). -/
def State.memRead (s : State) (a : Int) : Except FaultCause Word :=
  if inMemory a then .ok (s.mem.read a.toNat) else .error .memOutOfRange

/-- `MemWrite` (R39): the check comes before the write. -/
def State.memWrite (s : State) (a : Int) (v : Word) : Except FaultCause State :=
  if inMemory a then .ok { s with mem := s.mem.write a.toNat v } else .error .memOutOfRange

/-! ### The auxiliary stack -/

/-- The number of live entries (R24). -/
def State.depth (s : State) : Nat := Config.stackWords - s.sp

/-- `stk[j]` (R8); an index outside the array, which no reachable state gives (R26), reads 0 (DESIGN CHOICE, log 6). -/
def State.getStk (s : State) (j : Nat) : Word := (s.stk[j]?).getD 0

/-- `stk[j] <- v` (R8); an index outside the array, which no reachable state gives (R26), writes nothing (DESIGN CHOICE, log 6). -/
def State.setStk (s : State) (j : Nat) (v : Word) : State := { s with stk := s.stk.setIfInBounds j v }

/-- `sp <- n` (R8). -/
def State.setSp (s : State) (n : Nat) : State := { s with sp := n }

/-- `Push` (R115): pre-decrement. -/
def State.pushWord (s : State) (v : Word) : Except FaultCause State :=
  if s.sp = 0 then .error .stackOverflow else .ok ((s.setSp (s.sp - 1)).setStk (s.sp - 1) v)

/-- `Pop` (R116): post-increment; the entry keeps its value. The stack is empty at 32 (and, in states no run reaches,
above it: DESIGN CHOICE, log 6). -/
def State.popWord (s : State) : Except FaultCause (Word × State) :=
  if s.depth = 0 then .error .stackUnderflow else .ok (s.getStk s.sp, s.setSp (s.sp + 1))

/-! ### The common part of every step -/

/-- `pc <- A + 1` before the body (R87); it wraps only for a pc no fetch accepts (DESIGN CHOICE, log 5). -/
def State.advance (s : State) : State := s.setPc (wrap (sval s.pc + 1))

/-- What follows a body that completed (R88, R89): r0 forced to 0, one more instruction counted. -/
def State.complete (t : State) : State := { t.setReg 0 0 with count := t.count + 1 }

/-- TAKING A FAULT (R90, R91, R124): the state before the step, with the status, the cause and the address recorded. -/
def State.takeFault (s : State) (c : FaultCause) : State := { s with status := .faulted, cause := c, faddr := s.pc }

/-- The working-copy discipline of R91: advance, run the body, and either complete or fault with nothing kept. -/
def runBody (s : State) (body : State → Except FaultCause State) : Host.Outcome State Fault Refusal :=
  match body s.advance with
  | .ok t => .next t.complete
  | .error c => .next (s.takeFault c)

end Sys2Proof.Machine
end

