-- ==== Sys2Proof/Machine/Alu.lean ====
section
/-! DEFINITION. The register family of spec/41_alu.md: ADD, NAND, DEC, XADD, SHL, OR, CMP, BSR. A body runs on the
working copy with pc already advanced (spec/40_cycle.md R94). None of them faults. -/

namespace Sys2Proof.Machine

/-- The body of ADD (R97). -/
def addBody (a0 a1 a2 : Reg) (t : State) : State := t.setReg a2 (addW (t.getReg a0) (t.getReg a1))

/-- The body of NAND (R98). -/
def nandBody (a0 a1 a2 : Reg) (t : State) : State := t.setReg a2 (nandW (t.getReg a0) (t.getReg a1))

/-- The body of DEC (R99). -/
def decBody (a0 : Reg) (t : State) : State := t.setReg a0 (subW (t.getReg a0) 1)

/-- The body of XADD (R100): four writes, each reading the registers as the previous ones left them. -/
def xaddBody (a0 a1 a2 : Reg) (t : State) : State :=
  let t1 := t.setReg a2 (t.getReg a0)
  let t2 := t1.setReg a0 (t1.getReg a1)
  let t3 := t2.setReg a1 (t2.getReg a2)
  t3.setReg a2 (addW (t3.getReg a0) (t3.getReg a1))

/-- The body of SHL (R101). -/
def shlBody (a0 a1 a2 : Reg) (t : State) : State := t.setReg a2 (shlW (t.getReg a0) (t.getReg a1))

/-- The body of OR (R102). -/
def orBody (a0 a1 a2 : Reg) (t : State) : State := t.setReg a2 (orW (t.getReg a0) (t.getReg a1))

/-- The body of CMP (R103). -/
def cmpBody (a0 a1 : Reg) (t : State) : State := t.setZ (cmpZ (t.getReg a0) (t.getReg a1))

/-- The body of BSR (R104): the scanned value is read before the write. -/
def bsrBody (a0 a1 : Reg) (t : State) : State :=
  (t.setReg a1 (bsrResult (t.getReg a0))).setZ (bsrZ (t.getReg a0))

/-- ADD (R97). -/
def execAdd (a0 a1 a2 : Reg) (s : State) : Host.Outcome State Fault Refusal :=
  runBody s fun t => .ok (addBody a0 a1 a2 t)

/-- NAND (R98). -/
def execNand (a0 a1 a2 : Reg) (s : State) : Host.Outcome State Fault Refusal :=
  runBody s fun t => .ok (nandBody a0 a1 a2 t)

/-- DEC (R99). -/
def execDec (a0 : Reg) (s : State) : Host.Outcome State Fault Refusal :=
  runBody s fun t => .ok (decBody a0 t)

/-- XADD (R100). -/
def execXadd (a0 a1 a2 : Reg) (s : State) : Host.Outcome State Fault Refusal :=
  runBody s fun t => .ok (xaddBody a0 a1 a2 t)

/-- SHL (R101). -/
def execShl (a0 a1 a2 : Reg) (s : State) : Host.Outcome State Fault Refusal :=
  runBody s fun t => .ok (shlBody a0 a1 a2 t)

/-- OR (R102). -/
def execOr (a0 a1 a2 : Reg) (s : State) : Host.Outcome State Fault Refusal :=
  runBody s fun t => .ok (orBody a0 a1 a2 t)

/-- CMP (R103). -/
def execCmp (a0 a1 : Reg) (s : State) : Host.Outcome State Fault Refusal :=
  runBody s fun t => .ok (cmpBody a0 a1 t)

/-- BSR (R104). -/
def execBsr (a0 a1 : Reg) (s : State) : Host.Outcome State Fault Refusal :=
  runBody s fun t => .ok (bsrBody a0 a1 t)

end Sys2Proof.Machine
end

