-- ==== Sys2Proof/Machine/Operands.lean ====
section
/-! DEFINITION. The operand forms: base register plus offset (spec/20_memory.md R40), PC-relative target and link
(spec/43_control.md R107, R109). Register operands are `State.getReg` and `State.setReg`; stack operands are
`State.popWord` and `State.pushWord`. -/

namespace Sys2Proof.Machine

/-- The effective address of LW and SW (R40, D14): an exact integer, no wrap. -/
def State.effectiveAddress (t : State) (base : Reg) (off : Int) : Int := sval (t.getReg base) + off

/-- The target of a taken PC-relative branch (R107); `t.pc` is already the post-increment value (R19).
From a fetched instruction the sum never wraps (R18); in other states it does (DESIGN CHOICE, log 5). -/
def State.branchTarget (t : State) (off : Int) : Word := wrap (sval t.pc + off)

/-- A PC-relative branch: `if c then pc <- pc + off` (R107). -/
def State.branchIf (t : State) (c : Bool) (off : Int) : State := if c then t.setPc (t.branchTarget off) else t

end Sys2Proof.Machine
end

