-- ==== Sys2Proof/Machine/Control.lean ====
section
/-! DEFINITION. The control family of spec/43_control.md: BEQ, JALR, HALT, NOOP, JMA, JE, JMNE. A branch does not check
its target; the next step's PC check does (R107). -/

namespace Sys2Proof.Machine

/-- The body of BEQ (R108). -/
def beqBody (a0 a1 : Reg) (off : Int) (t : State) : State := t.branchIf (decide (t.getReg a0 = t.getReg a1)) off

/-- The body of JALR (R109): the link is written first, and register field 0 jumps to 0 whatever r0's cell holds. -/
def jalrBody (a0 a1 : Reg) (t : State) : State :=
  let t1 := t.setReg a1 t.pc
  if a0 ≠ 0 then t1.setPc (t1.getReg a0) else t1.setPc 0

/-- The body of JMA (R112): unsigned greater. -/
def jmaBody (a0 a1 : Reg) (off : Int) (t : State) : State :=
  t.branchIf (decide (uval (t.getReg a0) > uval (t.getReg a1))) off

/-- The body of JE (R113). -/
def jeBody (off : Int) (t : State) : State := t.branchIf t.z off

/-- The body of JMNE (R114): both values are popped whether or not the branch is taken. -/
def jmneBody (off : Int) (t : State) : Except FaultCause State :=
  if t.depth < 2 then .error .stackUnderflow else
  match t.popWord with
  | .error c => .error c
  | .ok (v1, t1) =>
    match t1.popWord with
    | .error c => .error c
    | .ok (v2, t2) => .ok (t2.branchIf (decide (v1 ≠ v2)) off)

/-- BEQ (R108). -/
def execBeq (a0 a1 : Reg) (off : Int) (s : State) : Host.Outcome State Fault Refusal :=
  runBody s fun t => .ok (beqBody a0 a1 off t)

/-- JALR (R109). -/
def execJalr (a0 a1 : Reg) (s : State) : Host.Outcome State Fault Refusal :=
  runBody s fun t => .ok (jalrBody a0 a1 t)

/-- HALT (R110): its only effect is the run status (R89). -/
def execHalt (s : State) : Host.Outcome State Fault Refusal := runBody s fun t => .ok (t.setStatus .halted)

/-- NOOP (R111). -/
def execNoop (s : State) : Host.Outcome State Fault Refusal := runBody s fun t => .ok t

/-- JMA (R112). -/
def execJma (a0 a1 : Reg) (off : Int) (s : State) : Host.Outcome State Fault Refusal :=
  runBody s fun t => .ok (jmaBody a0 a1 off t)

/-- JE (R113). -/
def execJe (off : Int) (s : State) : Host.Outcome State Fault Refusal := runBody s fun t => .ok (jeBody off t)

/-- JMNE (R114); its register fields are ignored (R57). -/
def execJmne (_a0 _a1 : Reg) (off : Int) (s : State) : Host.Outcome State Fault Refusal := runBody s (jmneBody off)

end Sys2Proof.Machine
end

