-- ==== Sys2Proof/Machine/LoadStore.lean ====
section
/-! DEFINITION. LW and SW of spec/42_loadstore.md. -/

namespace Sys2Proof.Machine

/-- The body of LW (R105): the base is read before the destination is written; a load into r0 still reads. -/
def lwBody (a0 a1 : Reg) (off : Int) (t : State) : Except FaultCause State :=
  match t.memRead (t.effectiveAddress a0 off) with
  | .ok v => .ok (t.setReg a1 v)
  | .error c => .error c

/-- The body of SW (R106). -/
def swBody (a0 a1 : Reg) (off : Int) (t : State) : Except FaultCause State :=
  t.memWrite (t.effectiveAddress a0 off) (t.getReg a1)

/-- LW (R105). -/
def execLw (a0 a1 : Reg) (off : Int) (s : State) : Host.Outcome State Fault Refusal := runBody s (lwBody a0 a1 off)

/-- SW (R106). -/
def execSw (a0 a1 : Reg) (off : Int) (s : State) : Host.Outcome State Fault Refusal := runBody s (swBody a0 a1 off)

end Sys2Proof.Machine
end

