-- ==== Sys2Proof/Machine/Stack.lean ====
section
/-! DEFINITION. The stack family of spec/44_stack.md: IDIV, NEG, POP, PUSH. -/

namespace Sys2Proof.Machine

/-- The division of R117 once both operands are popped: DIV_BY_ZERO before DIV_OVERFLOW (R123, D6, D9). -/
def divide (n d : Word) : Except FaultCause Word :=
  if d = 0 then .error .divByZero
  else if sval n = wordMin ∧ sval d = -1 then .error .divOverflow
  else .ok (tdivW n d)

/-- The body of IDIV (R117): divisor on top, dividend below it. -/
def idivBody (t : State) : Except FaultCause State :=
  if t.depth < 2 then .error .stackUnderflow else
  match t.popWord with
  | .error c => .error c
  | .ok (d, t1) =>
    match t1.popWord with
    | .error c => .error c
    | .ok (n, t2) =>
      match divide n d with
      | .error c => .error c
      | .ok q => t2.pushWord q

/-- The body of NEG (R118): in place, `sp` unchanged; Z from the stored result. -/
def negBody (t : State) : Except FaultCause State :=
  if t.depth = 0 then .error .stackUnderflow else
  let t1 := t.setStk t.sp (negW (t.getStk t.sp))
  .ok (t1.setZ (negZ (t1.getStk t1.sp)))

/-- The body of POP (R119). -/
def popBody (a0 : Reg) (t : State) : Except FaultCause State :=
  match t.popWord with
  | .error c => .error c
  | .ok (v, t1) => .ok (t1.setReg a0 v)

/-- The body of PUSH (R120). -/
def pushBody (a0 : Reg) (t : State) : Except FaultCause State := t.pushWord (t.getReg a0)

/-- IDIV (R117). -/
def execIdiv (s : State) : Host.Outcome State Fault Refusal := runBody s idivBody

/-- NEG (R118). -/
def execNeg (s : State) : Host.Outcome State Fault Refusal := runBody s negBody

/-- POP (R119). -/
def execPop (a0 : Reg) (s : State) : Host.Outcome State Fault Refusal := runBody s (popBody a0)

/-- PUSH (R120). -/
def execPush (a0 : Reg) (s : State) : Host.Outcome State Fault Refusal := runBody s (pushBody a0)

end Sys2Proof.Machine
end

