-- ==== Sys2Proof/Machine/Dispatch.lean ====
section
/-! DEFINITION. The dispatch of spec/40_cycle.md R86: one arm per instruction, each a direct call of its meaning. -/

namespace Sys2Proof.Machine

/-- One instruction executed from the state it was fetched in (R91 from `t <- s` on). The status is tested by `step`, not
here (DESIGN CHOICE, log 19). -/
def exec (i : Instr) (s : State) : Host.Outcome State Fault Refusal :=
  match i with
  | .add a0 a1 a2 => Sys2Proof.Machine.execAdd a0 a1 a2 s
  | .nand a0 a1 a2 => Sys2Proof.Machine.execNand a0 a1 a2 s
  | .lw a0 a1 off => Sys2Proof.Machine.execLw a0 a1 off s
  | .sw a0 a1 off => Sys2Proof.Machine.execSw a0 a1 off s
  | .beq a0 a1 off => Sys2Proof.Machine.execBeq a0 a1 off s
  | .jalr a0 a1 => Sys2Proof.Machine.execJalr a0 a1 s
  | .halt => Sys2Proof.Machine.execHalt s
  | .noop => Sys2Proof.Machine.execNoop s
  | .idiv => Sys2Proof.Machine.execIdiv s
  | .dec a0 => Sys2Proof.Machine.execDec a0 s
  | .xadd a0 a1 a2 => Sys2Proof.Machine.execXadd a0 a1 a2 s
  | .shl a0 a1 a2 => Sys2Proof.Machine.execShl a0 a1 a2 s
  | .or a0 a1 a2 => Sys2Proof.Machine.execOr a0 a1 a2 s
  | .neg => Sys2Proof.Machine.execNeg s
  | .jma a0 a1 off => Sys2Proof.Machine.execJma a0 a1 off s
  | .jmne a0 a1 off => Sys2Proof.Machine.execJmne a0 a1 off s
  | .cmp a0 a1 => Sys2Proof.Machine.execCmp a0 a1 s
  | .je off => Sys2Proof.Machine.execJe off s
  | .bsr a0 a1 => Sys2Proof.Machine.execBsr a0 a1 s
  | .pop a0 => Sys2Proof.Machine.execPop a0 s
  | .push a0 => Sys2Proof.Machine.execPush a0 s

end Sys2Proof.Machine
end

