-- ==== Sys2Proof/Machine/Cycle.lean ====
section
/-! DEFINITION. The fetch-decode-execute step of spec/40_cycle.md R83 to R93, and the placing of a word where the next step
fetches it. -/

namespace Sys2Proof.Machine

/-- The PC check and the fetch (R84, R85; spec/20_memory.md R41): BAD_PC, not MEM_OUT_OF_RANGE. -/
def State.fetch (s : State) : Except FaultCause Word :=
  if inMemory (sval s.pc) then .ok (s.mem.read (sval s.pc).toNat) else .error .badPc

/-- Fetch and decode (R85, R86): an illegal opcode is ILLEGAL_OPCODE. -/
def State.fetchInstr (s : State) : Except FaultCause Instr :=
  match s.fetch with
  | .error c => .error c
  | .ok w =>
    match decode w with
    | .error _ => .error .illegalOpcode
    | .ok i => .ok i

/-- `Step` (R91) of a RUNNING executor. -/
def cycle (s : State) : Host.Outcome State Fault Refusal :=
  match s.fetchInstr with
  | .error c => .next (s.takeFault c)
  | .ok i => exec i s

/-- Outside RUNNING no step is taken (R93): nothing changes, whatever the time that passes (DESIGN CHOICE, log 2). -/
def rest (s : State) : Host.Outcome State Fault Refusal := .next s

/-- `s` with the word `w` where the next step fetches, and RUNNING so that it does: what load and start (R136, R138) give
a program's word. The pc stays, unless no word can be fetched there; then it is 0 (DESIGN CHOICE, log 3). -/
def State.placeWord (s : State) (w : Word) : State :=
  let pc := if inMemory (sval s.pc) then s.pc else 0
  { s with pc := pc, mem := s.mem.write (sval pc).toNat w, status := .running }

end Sys2Proof.Machine
end

