-- ==== Sys2Proof/Machine/Step.lean ====
section
/-! DEFINITION. One step of the machine (spec/40_cycle.md R83, R91, R93), and the host's placing of an instruction. -/

namespace Sys2Proof.Machine

/-- One step: an instruction or a fault when RUNNING, nothing otherwise. -/
def step (s : State) : Host.Outcome State Fault Refusal :=
  match s.status with
  | .running => cycle s
  | .idle => rest s
  | .halted => rest s
  | .faulted => rest s

/-- `s` with the instruction whose low `nbits` bits are `w` (zeros above) stored where `step` fetches next. -/
def State.withFetchWord (s : State) (nbits w : Nat) : State := s.placeWord (BitVec.ofNat Config.wordBits (w % 2 ^ nbits))

end Sys2Proof.Machine
end

