-- ==== Sys2Proof/Machine/Text.lean ====
section
/-! DEFINITION. Decimal text: the operand literals of spec/30_encoding.md R78 and R79, and the machine-code line of R82. A
text is a list of characters. -/

namespace Sys2Proof.Machine

/-- A piece of text. -/
abbrev Text := List Char

/-- The value of decimal digits, most significant first. -/
def digitsValue (t : Text) : Nat := t.foldl (fun n c => 10 * n + (c.toNat - 48)) 0

/-- "Purely-numeric decimal text": one or more digits and nothing else (R78). -/
def parseNat (t : Text) : Option Nat := if !t.isEmpty && t.all Char.isDigit then some (digitsValue t) else none

/-- A literal: an optional '-' and then one or more decimal digits (R79, D24). -/
def parseInt (t : Text) : Option Int :=
  match t with
  | '-' :: rest => (parseNat rest).map fun n => -(n : Int)
  | _ => (parseNat t).map fun n => (n : Int)

/-- The values a word holds (R6, R70, R136). -/
def fitsWord (v : Int) : Bool := decide (wordMin ≤ v) && decide (v ≤ wordMax)

/-- One line of the machine-code file as a word (R82, R136, D25); its decimal syntax is that of a literal (DESIGN CHOICE, log 15). -/
def parseWordLine (t : Text) : Option Word :=
  match parseInt t with
  | some v => if fitsWord v then some (wrap v) else none
  | none => none

/-- Every line of a machine-code file, or none if one line is no word (R136). -/
def parseWordLines : List Text → Option (List Word)
  | [] => some []
  | l :: ls =>
    match parseWordLine l, parseWordLines ls with
    | some w, some ws => some (w :: ws)
    | _, _ => none

/-- The decimal digits of `n`, at most `fuel` of them. -/
def decimalDigits : Nat → Nat → Text
  | 0, _ => []
  | fuel + 1, n => if n < 10 then [Char.ofNat (48 + n)] else decimalDigits fuel (n / 10) ++ [Char.ofNat (48 + n % 10)]

/-- The machine-code line of a word (R82): its signed value in decimal. A word has at most as many
digits as bits. -/
def renderWord (w : Word) : Text :=
  if sval w < 0 then '-' :: decimalDigits Config.wordBits (sval w).natAbs else decimalDigits Config.wordBits (sval w).natAbs

end Sys2Proof.Machine
end

