-- ==== Sys2Proof/Machine/Assembler.lean ====
section
/-! DEFINITION. The assembler of spec/30_encoding.md R68 to R82: two passes over source lines, feeding the encoder of R66. -/

namespace Sys2Proof.Machine

/-- A whitespace-delimited field of a line (R74). -/
abbrev Token := Text

/-- Why an assembly fails; nothing is emitted then. Six kinds are R71's, which fixes what is reported with three of them:
the illegal opcode's address, the undefined symbol's name, the range error's value (and R75 the illegal opcode's mnemonic).
What the other kinds carry, and the seventh kind, are the model's choice (DESIGN CHOICE, log 22). -/
inductive AsmError where
  /-- a source line longer than MAX_LINE: R74 says only that it is a terminal error, and none of R71's six kinds fits, so
  it has a kind of its own, reported with nothing (DESIGN CHOICE, log 22) -/
  | lineTooLong
  /-- an unrecognised mnemonic, with its address (R75); the empty one on a label-only line (R74) -/
  | illegalOpcode (mnemonic : Token) (address : Nat)
  /-- a malformed or duplicate label (R76), with the label (DESIGN CHOICE, log 22) -/
  | badLabel (label : Token)
  /-- the operand count is not the mnemonic's arity (R74, R80), with the line's address (DESIGN CHOICE, log 22) -/
  | wrongOperandCount (address : Nat)
  /-- a register operand that is not decimal text in [0, 7] (R78), with the operand (DESIGN CHOICE, log 22) -/
  | malformedOperand (operand : Token)
  /-- an undefined symbol, by name (R79) -/
  | undefinedSymbol (name : Token)
  /-- RANGE_ERROR, with the value (R65, R70) -/
  | rangeError (v : Int)
deriving DecidableEq, Repr

/-! ### Lines -/

/-- The tokens of a line, `cur` being the token under way; white space is space, tab, CR and LF (DESIGN CHOICE, log 14). -/
def splitTokens : Text → Token → List Token
  | [], cur => if cur.isEmpty then [] else [cur]
  | c :: cs, cur =>
    if c.isWhitespace then (if cur.isEmpty then splitTokens cs [] else cur :: splitTokens cs [])
    else splitTokens cs (cur ++ [c])

/-- A line's whitespace-delimited fields (R74). -/
def tokensOf (line : Text) : List Token := splitTokens line []

/-- A non-blank source line (R74). -/
structure SourceLine where
  label : Option Token
  mnemonic : Token
  operands : List Token
deriving DecidableEq, Repr

/-- Whether a line starts in the first column, and so with a label (R74, D21). -/
def startsWithLabel (line : Text) : Bool :=
  match line with
  | [] => false
  | c :: _ => !c.isWhitespace

/-- A line's label, mnemonic and operands; a blank line is none (R74, R77). A label alone has the empty mnemonic. -/
def parseLine (line : Text) : Option SourceLine :=
  match tokensOf line, startsWithLabel line with
  | [], _ => none
  | m :: ops, false => some ⟨none, m, ops⟩
  | [l], true => some ⟨some l, [], []⟩
  | l :: m :: ops, true => some ⟨some l, m, ops⟩

/-! ### Pass 1: labels -/

/-- The symbol table: each label's address (R76). -/
abbrev Symbols := List (Token × Nat)

/-- A well-formed label (R76): a letter, then letters and digits, at most LABEL_MAX characters. Letters and digits are
those of ASCII (DESIGN CHOICE, log 14). -/
def labelOk (l : Token) : Bool :=
  match l with
  | [] => false
  | c :: cs => c.isAlpha && cs.all Char.isAlphanum && decide (l.length ≤ Config.labelMax)

/-- Pass 1 (R76, R77): each line is one address; the first malformed or duplicate label is reported. -/
def collectLabels : Nat → Symbols → List SourceLine → Except AsmError Symbols
  | _, syms, [] => .ok syms
  | addr, syms, line :: rest =>
    match line.label with
    | none => collectLabels (addr + 1) syms rest
    | some l =>
      if labelOk l && (syms.lookup l).isNone then collectLabels (addr + 1) (syms ++ [(l, addr)]) rest
      else .error (.badLabel l)

/-! ### Pass 2: words -/

/-- A register operand (R78). -/
def registerOperand (t : Token) : Except AsmError Reg :=
  match parseNat t with
  | some n => if h : n < Config.numRegs then .ok ⟨n, h⟩ else .error (.malformedOperand t)
  | none => .error (.malformedOperand t)

/-- An address operand (R79): a literal as it is, or a symbol's address turned into a value by `ofSymbol`. -/
def addressOperand (syms : Symbols) (ofSymbol : Nat → Int) (t : Token) : Except AsmError Int :=
  match parseInt t with
  | some v => .ok v
  | none =>
    match syms.lookup t with
    | some target => .ok (ofSymbol target)
    | none => .error (.undefinedSymbol t)

/-- The operand lists of R80, each with what it builds. -/
inductive OperandForm where
  /-- reg reg reg -/
  | regRegReg (mk : Reg → Reg → Reg → Instr)
  /-- reg reg addr, a symbol absolute (R69) -/
  | regRegAbsolute (mk : Reg → Reg → Int → Instr)
  /-- reg reg addr, a symbol PC-relative (R68) -/
  | regRegRelative (mk : Reg → Reg → Int → Instr)
  /-- reg reg -/
  | regReg (mk : Reg → Reg → Instr)
  /-- reg -/
  | reg (mk : Reg → Instr)
  /-- addr, a symbol PC-relative (R68) -/
  | relative (mk : Int → Instr)
  /-- no operand -/
  | nothing (i : Instr)
  /-- the directive `.fill` (R70, R81) -/
  | fill

/-- The mnemonics of R75, lower case and case-sensitive (D35), with their operand lists (R80). -/
def mnemonicTable : List (Token × OperandForm) :=
  [(['a', 'd', 'd'], .regRegReg .add),
   (['n', 'a', 'n', 'd'], .regRegReg .nand),
   (['l', 'w'], .regRegAbsolute .lw),
   (['s', 'w'], .regRegAbsolute .sw),
   (['b', 'e', 'q'], .regRegRelative .beq),
   (['j', 'a', 'l', 'r'], .regReg .jalr),
   (['h', 'a', 'l', 't'], .nothing .halt),
   (['n', 'o', 'o', 'p'], .nothing .noop),
   (['i', 'd', 'i', 'v'], .nothing .idiv),
   (['d', 'e', 'c'], .reg .dec),
   (['x', 'a', 'd', 'd'], .regRegReg .xadd),
   (['s', 'h', 'l'], .regRegReg .shl),
   (['o', 'r'], .regRegReg .or),
   (['n', 'e', 'g'], .nothing .neg),
   (['j', 'm', 'a'], .regRegRelative .jma),
   (['j', 'm', 'n', 'e'], .regRegRelative .jmne),
   (['c', 'm', 'p'], .regReg .cmp),
   (['j', 'e'], .relative .je),
   (['b', 's', 'r'], .regReg .bsr),
   (['p', 'o', 'p'], .reg .pop),
   (['p', 'u', 's', 'h'], .reg .push),
   (['.', 'f', 'i', 'l', 'l'], .fill)]

/-- The encoder of R66 as the assembler's error kinds. -/
def emitInstr (i : Instr) : Except AsmError Word :=
  match encodeChecked i with
  | .ok w => .ok w
  | .error (.rangeError v) => .error (.rangeError v)

/-- `.fill` (R70, D23): the value verbatim, which a word must hold. -/
def emitFill (v : Int) : Except AsmError Word := if fitsWord v then .ok (wrap v) else .error (.rangeError v)

/-- The word of a mnemonic's operands at address `addr` (R80): arity first, then the operands in text order, then the
range. -/
def emitForm (syms : Symbols) (addr : Nat) : OperandForm → List Token → Except AsmError Word
  | .regRegReg mk, [x, y, z] => do
    let a ← registerOperand x
    let b ← registerOperand y
    let c ← registerOperand z
    emitInstr (mk a b c)
  | .regRegAbsolute mk, [x, y, z] => do
    let a ← registerOperand x
    let b ← registerOperand y
    let v ← addressOperand syms (fun target => (target : Int)) z
    emitInstr (mk a b v)
  | .regRegRelative mk, [x, y, z] => do
    let a ← registerOperand x
    let b ← registerOperand y
    let v ← addressOperand syms (fun target => relativeOffset target addr) z
    emitInstr (mk a b v)
  | .regReg mk, [x, y] => do
    let a ← registerOperand x
    let b ← registerOperand y
    emitInstr (mk a b)
  | .reg mk, [x] => do
    let a ← registerOperand x
    emitInstr (mk a)
  | .relative mk, [x] => do
    let v ← addressOperand syms (fun target => relativeOffset target addr) x
    emitInstr (mk v)
  | .nothing i, [] => emitInstr i
  | .fill, [x] => do
    let v ← addressOperand syms (fun target => (target : Int)) x
    emitFill v
  | _, _ => .error (.wrongOperandCount addr)

/-- The word of one source line (R75, R80). -/
def emitLine (syms : Symbols) (addr : Nat) (line : SourceLine) : Except AsmError Word :=
  match mnemonicTable.lookup line.mnemonic with
  | none => .error (.illegalOpcode line.mnemonic addr)
  | some form => emitForm syms addr form line.operands

/-- Pass 2 (R77): one word per line, in order; the first error ends it. -/
def emitLines (syms : Symbols) : Nat → List SourceLine → Except AsmError (List Word)
  | _, [] => .ok []
  | addr, line :: rest => do
    let w ← emitLine syms addr line
    let ws ← emitLines syms (addr + 1) rest
    .ok (w :: ws)

/-- The assembler with MAX_LINE as an argument (R74, D22): all the words, or one error and no word (R71). Which of
several errors is reported is fixed by this order: line lengths, labels, then the lines in turn (DESIGN CHOICE, log 13). -/
def assembleWith (maxLine : Nat) (source : List Text) : Except AsmError (List Word) :=
  if source.any fun l => decide (maxLine < l.length) then .error .lineTooLong else do
    let lines := source.filterMap parseLine
    let syms ← collectLabels 0 [] lines
    emitLines syms 0 lines

/-- The assembler of this hardware. -/
def assemble (source : List Text) : Except AsmError (List Word) := assembleWith Config.maxLine source

/-- The machine-code file of a source (R82): one decimal integer per line. -/
def machineCode (source : List Text) : Except AsmError (List Text) := do
  let ws ← assemble source
  .ok (ws.map renderWord)

end Sys2Proof.Machine
end

