-- ==== Sys2Proof/Machine/HostOps.lean ====
section
/-! DEFINITION. The host's side of spec/70_reset_and_hazards.md: reset, load, preload, start (R135 to R139) and the
observations (R140, R141). -/

namespace Sys2Proof.Machine

/-- What the host can do to the block (R134). -/
inductive HostOp where
  /-- R135 -/
  | reset
  /-- R136 -/
  | load (words : List Word)
  /-- R136, from the lines of a machine-code file (R82) -/
  | loadText (lines : List Text)
  /-- R137 -/
  | preload (r : Reg) (v : Word)
  /-- R138 -/
  | start
deriving DecidableEq, Repr

/-- What the block answers. -/
inductive HostReply where
  /-- the operation took effect -/
  | done
  /-- the operation is ignored in this status, or for this register -/
  | ignored
  /-- a failed load (R136, D25) -/
  | loadError
deriving DecidableEq, Repr

/-- Reset (R135): in any status, every element of the state takes its reset value. -/
def State.hostReset (_s : State) : State × HostReply := (State.reset, .done)

/-- Load (R136): in IDLE only; a load longer than the memory fails and writes no word. Outside IDLE it is ignored
(DEDUCED from R140, log 16). -/
def State.load (s : State) (words : List Word) : State × HostReply :=
  if s.status = .idle then
    if words.length ≤ Config.memWords then (({ s with mem := s.mem.writeAll 0 words }, .done)) else (s, .loadError)
  else (s, .ignored)

/-- Load from a machine-code file (R136, R82, D25): a line that is no word makes the load fail and write no word. -/
def State.loadText (s : State) (lines : List Text) : State × HostReply :=
  match parseWordLines lines with
  | some words => s.load words
  | none => if s.status = .idle then (s, .loadError) else (s, .ignored)

/-- Preload (R137): r1..r7, in IDLE only; a preload of r0 is ignored. Outside IDLE it is ignored (DEDUCED from R140,
log 16). -/
def State.preload (s : State) (r : Reg) (v : Word) : State × HostReply :=
  if s.status = .idle ∧ r ≠ 0 then (s.setReg r v, .done) else (s, .ignored)

/-- Start (R138): IDLE to RUNNING, ignored otherwise. -/
def State.start (s : State) : State × HostReply :=
  if s.status = .idle then (s.setStatus .running, .done) else (s, .ignored)

/-- One operation of the host. -/
def hostOp (op : HostOp) (s : State) : State × HostReply :=
  match op with
  | .reset => s.hostReset
  | .load words => s.load words
  | .loadText lines => s.loadText lines
  | .preload r v => s.preload r v
  | .start => s.start

/-- A sequence of host operations, replies dropped: the boot of R139 is one. -/
def hostOps (ops : List HostOp) (s : State) : State := ops.foldl (fun t op => (hostOp op t).1) s

/-- What the host reads at any time (R140). -/
structure StatusView where
  status : Status
  cause : FaultCause
  faddr : Word
  count : Nat
deriving DecidableEq, Repr

/-- The status read (R140). -/
def State.statusView (s : State) : StatusView where
  status := s.status
  cause := s.cause
  faddr := s.faddr
  count := s.count

/-- The full state, which the host reads when the status is not RUNNING (R140). -/
def State.fullView (s : State) : Option State := if s.status = .running then none else some s

/-- The live stack, top first (R25). -/
def State.liveStack (s : State) : List Word := s.stk.toList.drop s.sp

/-- The information of the source's state dump (R141). -/
structure TraceView where
  pc : Word
  /-- the memory up to the highest address loaded -/
  memory : List Word
  registers : List Word
  /-- the stack from top to bottom -/
  stack : List Word
  z : Bool
deriving DecidableEq, Repr

/-- The trace (R141) of a state into which `loaded` words were loaded: an argument, since the loaded length is no part of
the state of R33 (DESIGN CHOICE, log 17). -/
def State.trace (s : State) (loaded : Nat) : TraceView where
  pc := s.pc
  memory := (List.range loaded).map fun a => s.mem.read a
  registers := s.reg.toList
  stack := s.liveStack
  z := s.z

end Sys2Proof.Machine
end

