-- ==== Sys2Proof/Safety.lean ====
section
/-! DEFINITION. The terms the statements use: the invariant of reachable states, the end of a run (spec/70_reset_and_hazards.md
R142), a safe state, the parts of a state an instruction leaves alone, where an assembled branch lands,
and the tables of R17 and R56 the statements name. -/

namespace Sys2Proof.Machine

/-- The invariant of every state the machine reaches: r0 reads 0 between instructions (R16), sp is in [0, 32] (R26), the
memory is in canonical form, and a cause and an address are recorded exactly when FAULTED (R29, R126). -/
structure State.Inv (s : State) : Prop where
  r0_zero : s.getReg 0 = 0
  sp_le : s.sp ≤ Config.stackWords
  mem_wf : s.mem.wf = true
  cause_iff : s.cause = .none ↔ s.status ≠ .faulted
  faddr_zero : s.status ≠ .faulted → s.faddr = 0

/-- A run has ended (R142). -/
def State.Ended (s : State) : Prop := s.status = .halted ∨ s.status = .faulted

/-- A safe state: no fault has been taken. -/
def State.Safe (s : State) : Prop := s.status ≠ .faulted

/-- `t` is `s` after one more completed instruction, as far as the step itself goes (R88, R89): r0 forced, the
instruction counted, the fault record untouched. -/
structure Completed (s t : State) : Prop where
  r0_zero : t.getReg 0 = 0
  count_eq : t.count = s.count + 1
  cause_eq : t.cause = s.cause
  faddr_eq : t.faddr = s.faddr

/-- Every register outside `ds`, r0 apart (it is forced to 0), holds what it held. -/
def RegsKeptBut (ds : List Reg) (s t : State) : Prop := ∀ r : Reg, r ≠ 0 → r ∉ ds → t.getReg r = s.getReg r

/-- Every word of memory reads as before. -/
def MemKept (s t : State) : Prop := ∀ a : Nat, t.mem.read a = s.mem.read a

/-- The stack pointer and every stack entry are as before. -/
def StackKept (s t : State) : Prop := t.sp = s.sp ∧ ∀ j : Nat, t.getStk j = s.getStk j

/-- `s` is about to execute the word `w` at its pc. -/
def Fetches (s : State) (w : Word) : Prop :=
  s.status = .running ∧ 0 ≤ sval s.pc ∧ sval s.pc < 4096 ∧ s.mem.read (sval s.pc).toNat = w

/-- Where a taken branch assembled at address `A` for the target `T` lands: at `T`, but for the one offset the encoder
accepts and the field does not hold, `T - A - 1 = 16384`, which decodes as -16384 (R67). -/
def landing (A T : Nat) : Int := if T = A + 16385 then (A : Int) + 1 - 16384 else T

/-- The bits of a word that a format uses (the patterns of R56, every bit that is not `x`). -/
def usedBits : Format → Word
  | .r3 => 0xFFFF8007
  | .r2i => 0xFFFFFFFF
  | .r2 => 0xFFFF8000
  | .r1 => 0xFFFC0000
  | .i => 0xFFE07FFF
  | .n => 0xFFE00000

/-- The registers an instruction may write: the table of spec/10_state.md R17. -/
def writtenRegs : Instr → List Reg
  | .add _ _ a2 => [a2]
  | .nand _ _ a2 => [a2]
  | .lw _ a1 _ => [a1]
  | .sw _ _ _ => []
  | .beq _ _ _ => []
  | .jalr _ a1 => [a1]
  | .halt => []
  | .noop => []
  | .idiv => []
  | .dec a0 => [a0]
  | .xadd a0 a1 a2 => [a2, a0, a1]
  | .shl _ _ a2 => [a2]
  | .or _ _ a2 => [a2]
  | .neg => []
  | .jma _ _ _ => []
  | .jmne _ _ _ => []
  | .cmp _ _ => []
  | .je _ => []
  | .bsr _ a1 => [a1]
  | .pop a0 => [a0]
  | .push _ => []

/-- The registers an instruction may read: the table of spec/10_state.md R17. -/
def readRegs : Instr → List Reg
  | .add a0 a1 _ => [a0, a1]
  | .nand a0 a1 _ => [a0, a1]
  | .lw a0 _ _ => [a0]
  | .sw a0 a1 _ => [a0, a1]
  | .beq a0 a1 _ => [a0, a1]
  | .jalr a0 _ => if a0 = 0 then [] else [a0]
  | .halt => []
  | .noop => []
  | .idiv => []
  | .dec a0 => [a0]
  | .xadd a0 a1 a2 => [a0, a1, a2]
  | .shl a0 a1 _ => [a0, a1]
  | .or a0 a1 _ => [a0, a1]
  | .neg => []
  | .jma a0 a1 _ => [a0, a1]
  | .jmne _ _ _ => []
  | .cmp a0 a1 => [a0, a1]
  | .je _ => []
  | .bsr a0 _ => [a0]
  | .pop _ => []
  | .push a0 => [a0]

/-- Two states that differ at most in register `r`. -/
def SameButReg (r : Reg) (s s' : State) : Prop :=
  s' = { s with reg := s'.reg } ∧ ∀ q : Reg, q ≠ r → s'.getReg q = s.getReg q

/-- Two states that differ at most in stack entries below sp, which are not live (R25). -/
def SameButDeadEntries (s s' : State) : Prop :=
  s' = { s with stk := s'.stk } ∧ ∀ j, s.sp ≤ j → s'.getStk j = s.getStk j

end Sys2Proof.Machine
end

