-- ==== Sys2Proof/Certificates/Slice0/Obligations.lean ====
section
/-! DEFINITION. The statements for the provers, stated from the numbered rules of spec/. The count clause of `Completed` is
the spec's decision D17 (spec/40_cycle.md R89); that a fault keeps nothing is its decision D7 (R90). -/

open Sys2Proof Sys2Proof.Machine

/-! ### Decoding and encoding -/

/-- A few words written out in spec/95_test_vectors.md decode to the instructions they stand for. -/
def Obligations.ListedWordsDecode : Prop :=
  decode 327683 = .ok (.add 1 2 3) ∧ decode 6324233 = .ok (.sw 0 1 9) ∧ decode 8421375 = .ok (.beq 0 0 (-1)) ∧
  decode 35684346 = .ok (.je (-6)) ∧ decode 38076416 = .ok (.bsr 1 2) ∧ decode 40632320 = .ok (.pop 3) ∧
  decode 12599296 = .ok .halt ∧ decode 360443 = .ok (.add 1 2 3) ∧ decode 44040192 = .error (.illegalOpcode 21)

/-- R54: sext15 subtracts 2^15 exactly when bit 14 is set, is a bijection from [0, 32767] onto [-16384, 16383], and is
what every word's offset is decoded with. -/
def Obligations.SignExtensionIsABijection : Prop :=
  (∀ f : Nat, f < 32768 → sext15 f = if f.testBit 14 then (f : Int) - 32768 else (f : Int)) ∧
  (∀ f : Nat, f < 32768 → -16384 ≤ sext15 f ∧ sext15 f ≤ 16383) ∧
  (∀ v : Int, -16384 ≤ v → v ≤ 16383 → ∃ f : Nat, (f < 32768 ∧ sext15 f = v) ∧ ∀ g : Nat, g < 32768 → sext15 g = v → g = f) ∧
  (∀ w : Word, (decodeFields w).off = sext15 (w.toNat % 32768))

/-- R72: decoding the encoding of any instruction gives it back for every offset in [-16384, 16383]; the offset 16384
decodes as -16384; an R3 word also yields the ignored offset sext15(a2). -/
def Obligations.DecodeUndoesEncode : Prop :=
  (∀ i : Instr, i.wellFormed = true →
    ∃ w, encodeChecked i = .ok w ∧ (decodeFields w).opcode = i.opcode ∧ (decodeFields w).legal = true ∧ decode w = .ok i) ∧
  (∀ i : Instr, i.offset? = some 16384 → ∃ w, encodeChecked i = .ok w ∧ (decodeFields w).off = -16384) ∧
  (∀ (a b c : Reg) (i : Instr), i = .add a b c ∨ i = .nand a b c ∨ i = .xadd a b c ∨ i = .shl a b c ∨ i = .or a b c →
    (decodeFields (encode i)).off = sext15 c.val)

/-- R67: with ENC_OFF_MAX = 16384 the encoder accepts 16384 and its word is that of -16384; with 16383 it refuses it. -/
def Obligations.BoundaryOffsetCollides : Prop :=
  (∀ a b : Reg, encodeCheckedWith 16384 (.lw a b 16384) = encodeCheckedWith 16384 (.lw a b (-16384)) ∧
    encodeCheckedWith 16384 (.sw a b 16384) = encodeCheckedWith 16384 (.sw a b (-16384)) ∧
    encodeCheckedWith 16384 (.beq a b 16384) = encodeCheckedWith 16384 (.beq a b (-16384)) ∧
    encodeCheckedWith 16384 (.jma a b 16384) = encodeCheckedWith 16384 (.jma a b (-16384)) ∧
    encodeCheckedWith 16384 (.jmne a b 16384) = encodeCheckedWith 16384 (.jmne a b (-16384)) ∧
    encodeCheckedWith 16384 (.je 16384) = encodeCheckedWith 16384 (.je (-16384))) ∧
  (∀ i : Instr, i.offset? = some 16384 →
    (∃ w, encodeCheckedWith 16384 i = .ok w ∧ (decodeFields w).off = -16384) ∧
    encodeCheckedWith 16383 i = .error (.rangeError 16384))

/-- R65: an offset in [-16384, 16384] is packed as its low 15 bits; any other offset is a RANGE_ERROR with the value. -/
def Obligations.EncoderChecksTheOffsetRange : Prop :=
  ∀ (i : Instr) (v : Int), i.offset? = some v →
    (-16384 ≤ v → v ≤ 16384 → ∃ w, encodeChecked i = .ok w ∧ ((w.toNat % 32768 : Nat) : Int) = v % 32768) ∧
    (¬ (-16384 ≤ v ∧ v ≤ 16384) → encodeChecked i = .error (.rangeError v))

/-- R56, R62: a word that decodes gives a well-formed instruction, whose encoding is the word with exactly the bits its
format does not use cleared. So no used bit is dropped or moved and no other bit has an effect. -/
def Obligations.EncodeUndoesDecodeOnUsedBits : Prop :=
  ∀ (w : Word) (i : Instr), decode w = .ok i → i.wellFormed = true ∧ encode i = w &&& usedBits i.format

/-- R61: a word is illegal exactly when bits 31:21 exceed 20; every negative word is illegal; every word in [0, 2097151] is
an ADD of its own fields and word 0 is `add 0 0 0`; executing an illegal word faults ILLEGAL_OPCODE. -/
def Obligations.IllegalWordsAreExactlyOpcodesAbove20 : Prop :=
  (∀ w : Word, (∃ e, decode w = .error e) ↔ 20 < w.toNat / 2097152) ∧
  (∀ w : Word, sval w < 0 → ∃ e, decode w = .error e) ∧
  (∀ w : Word, w.toNat ≤ 2097151 → ∃ a b c : Reg, decode w = .ok (.add a b c) ∧ a.val = w.toNat / 262144 % 8 ∧
    b.val = w.toNat / 32768 % 8 ∧ c.val = w.toNat % 8) ∧
  decode 0 = .ok (.add 0 0 0) ∧
  (∀ (s : State) (w : Word), Fetches s w → 20 < w.toNat / 2097152 →
    step s = .next { s with status := .faulted, cause := .illegalOpcode, faddr := s.pc })

/-! ### The step -/

/-- R91: when the word at the program counter decodes to a well-formed instruction, a step of the RUNNING executor is that
instruction executed in that state. -/
def Obligations.StepRunsTheDecodedInstruction : Prop :=
  ∀ (s : State) (w : Word) (i : Instr), Fetches s w → decode w = .ok i → i.wellFormed = true → step s = exec i s

/-- The word that `withFetchWord` places is the one the very next step runs. -/
def Obligations.PlacedWordIsRunNext : Prop :=
  ∀ (s : State) (w : Nat) (i : Instr), s.mem.wf = true → decodeTableWord 32 w = some i →
    step (s.withFetchWord 32 w) = exec i (s.withFetchWord 32 w)

/-- R84: a RUNNING executor whose pc lies outside [0, 4095] faults BAD_PC, with the bad pc as the fault address. -/
def Obligations.BadPcFaultsBeforeTheFetch : Prop :=
  ∀ s : State, s.status = .running → (sval s.pc < 0 ∨ 4096 ≤ sval s.pc) →
    step s = .next { s with status := .faulted, cause := .badPc, faddr := s.pc }

/-- R93: in IDLE, HALTED and FAULTED nothing changes, however many steps are asked for (that such a step answers the same
state is the model's choice, log 2). -/
def Obligations.NothingHappensOutsideRunning : Prop :=
  ∀ (s : State) (k : Nat), s.status ≠ .running → Host.Core.run core k s = .next s

/-- Every step answers a next state: no fault and no ordinary data stops the model (log 1). -/
def Obligations.EveryStepAnswersANextState : Prop := ∀ s : State, ∃ t, step s = .next t

/-- R90 (the spec's decision D7): a step that becomes FAULTED keeps registers, Z, sp, the stack, memory, pc and the
count, and records a cause other than NONE and the pc it started with. -/
def Obligations.FaultingStepKeepsNothing : Prop :=
  ∀ s t : State, s.status = .running → step s = .next t → t.status = .faulted →
    t.cause ≠ .none ∧ t = { s with status := .faulted, cause := t.cause, faddr := s.pc }

/-- R88, R89: a step that completes leaves r0 = 0, adds one to the count (D17), leaves the fault record, and ends HALTED
exactly when the instruction was HALT. -/
def Obligations.CompletedStepForcesR0AndCounts : Prop :=
  ∀ (s t : State) (i : Instr), s.status = .running → s.fetchInstr = .ok i → step s = .next t → t.status ≠ .faulted →
    t.getReg 0 = 0 ∧ t.count = s.count + 1 ∧ t.cause = s.cause ∧ t.faddr = s.faddr ∧
    (t.status = .halted ↔ i = .halt) ∧ (t.status = .running ↔ i ≠ .halt)

/-- R122, R123: which cause a faulting step records, in terms of the state before it: the raisers and conditions of the
table, BAD_PC before ILLEGAL_OPCODE before the body's own faults. -/
def Obligations.FaultCausesAreTheTable : Prop :=
  ∀ s t : State, s.Inv → s.status = .running → step s = .next t → t.status = .faulted →
    (t.cause = .badPc ∧ (sval s.pc < 0 ∨ 4096 ≤ sval s.pc)) ∨
    ((0 ≤ sval s.pc ∧ sval s.pc < 4096) ∧
      ((t.cause = .illegalOpcode ∧ 20 < (s.mem.read (sval s.pc).toNat).toNat / 2097152) ∨
       ∃ i, decode (s.mem.read (sval s.pc).toNat) = .ok i ∧
        ((t.cause = .memOutOfRange ∧ ∃ a b off, (i = .lw a b off ∨ i = .sw a b off) ∧
            (sval (s.getReg a) + off < 0 ∨ 4096 ≤ sval (s.getReg a) + off)) ∨
         (t.cause = .stackOverflow ∧ s.sp = 0 ∧ ∃ a, i = .push a) ∨
         (t.cause = .stackUnderflow ∧
            (s.sp = 32 ∧ (i = .neg ∨ ∃ a, i = .pop a) ∨ 31 ≤ s.sp ∧ (i = .idiv ∨ ∃ a b off, i = .jmne a b off))) ∨
         (t.cause = .divByZero ∧ i = .idiv ∧ s.sp ≤ 30 ∧ s.getStk s.sp = 0) ∨
         (t.cause = .divOverflow ∧ i = .idiv ∧ s.sp ≤ 30 ∧ sval (s.getStk s.sp) = -1 ∧
            sval (s.getStk (s.sp + 1)) = -2147483648))))

/-! ### The register family -/

/-- R98, R102: NAND and OR write the bitwise result to x[arg2] and nothing else; arg2 = 0 discards it. -/
def Obligations.NandAndOrAreBitwise : Prop :=
  ∀ (a0 a1 a2 : Reg) (s : State),
    (∃ t, exec (.nand a0 a1 a2) s = .next t ∧ Completed s t ∧ t.pc = s.pc + 1 ∧
      (a2 ≠ 0 → ∀ k, k < 32 → (t.getReg a2).getLsbD k = !((s.getReg a0).getLsbD k && (s.getReg a1).getLsbD k)) ∧
      RegsKeptBut [a2] s t ∧ t.z = s.z ∧ StackKept s t ∧ MemKept s t ∧ t.status = s.status) ∧
    (∃ t, exec (.or a0 a1 a2) s = .next t ∧ Completed s t ∧ t.pc = s.pc + 1 ∧
      (a2 ≠ 0 → ∀ k, k < 32 → (t.getReg a2).getLsbD k = ((s.getReg a0).getLsbD k || (s.getReg a1).getLsbD k)) ∧
      RegsKeptBut [a2] s t ∧ t.z = s.z ∧ StackKept s t ∧ MemKept s t ∧ t.status = s.status)

/-- R97, R99 with R96 (wrapping is the spec's decision D4): ADD writes the sum to x[arg2], DEC takes one from x[arg0],
both modulo 2^32; Z and everything else stay. -/
def Obligations.AddAndDecWrap : Prop :=
  (∀ (a0 a1 a2 : Reg) (s : State),
    ∃ t, exec (.add a0 a1 a2) s = .next t ∧ Completed s t ∧ t.pc = s.pc + 1 ∧
      (a2 ≠ 0 → (t.getReg a2).toNat = ((s.getReg a0).toNat + (s.getReg a1).toNat) % 2 ^ 32) ∧
      RegsKeptBut [a2] s t ∧ t.z = s.z ∧ StackKept s t ∧ MemKept s t ∧ t.status = s.status) ∧
  (∀ (a0 : Reg) (s : State),
    ∃ t, exec (.dec a0) s = .next t ∧ Completed s t ∧ t.pc = s.pc + 1 ∧
      (a0 ≠ 0 → (t.getReg a0).toNat = ((s.getReg a0).toNat + (2 ^ 32 - 1)) % 2 ^ 32) ∧
      RegsKeptBut [a0] s t ∧ t.z = s.z ∧ StackKept s t ∧ MemKept s t ∧ t.status = s.status)

/-- R101 (the amount's low five bits are the spec's decision D5): SHL writes x[arg0] shifted left, zeros entering at bit
0 and bits past 31 lost. -/
def Obligations.ShlShiftsByTheLowFiveBits : Prop :=
  ∀ (a0 a1 a2 : Reg) (s : State),
    ∃ t, exec (.shl a0 a1 a2) s = .next t ∧ Completed s t ∧ t.pc = s.pc + 1 ∧
      (a2 ≠ 0 → (t.getReg a2).toNat = ((s.getReg a0).toNat * 2 ^ ((s.getReg a1).toNat % 32)) % 2 ^ 32) ∧
      RegsKeptBut [a2] s t ∧ t.z = s.z ∧ StackKept s t ∧ MemKept s t ∧ t.status = s.status

/-- R100: XADD's result for every aliasing of its three registers (the case table of the rule, with a write to r0
discarded at the end). -/
def Obligations.XaddByAliasing : Prop :=
  ∀ (a0 a1 a2 : Reg) (s : State),
    ∃ t, exec (.xadd a0 a1 a2) s = .next t ∧ Completed s t ∧ t.pc = s.pc + 1 ∧
      (if a0 = a1 then
        (if a2 = a0 then a0 ≠ 0 → t.getReg a0 = s.getReg a0 + s.getReg a0
         else (a0 ≠ 0 → t.getReg a0 = s.getReg a0) ∧ (a2 ≠ 0 → t.getReg a2 = s.getReg a0 + s.getReg a0))
       else if a2 = a0 then
        (a0 ≠ 0 → t.getReg a0 = s.getReg a1 + s.getReg a1) ∧ (a1 ≠ 0 → t.getReg a1 = s.getReg a1)
       else if a2 = a1 then
        (a0 ≠ 0 → t.getReg a0 = s.getReg a0) ∧ (a1 ≠ 0 → t.getReg a1 = s.getReg a0 + s.getReg a0)
       else
        (a0 ≠ 0 → t.getReg a0 = s.getReg a1) ∧ (a1 ≠ 0 → t.getReg a1 = s.getReg a0) ∧
        (a2 ≠ 0 → t.getReg a2 = s.getReg a0 + s.getReg a1)) ∧
      RegsKeptBut [a0, a1, a2] s t ∧ t.z = s.z ∧ StackKept s t ∧ MemKept s t ∧ t.status = s.status

/-- R103 (that wrapping subtraction makes it an equality test is the spec's D33): CMP writes only Z, true exactly when
the operands are equal. -/
def Obligations.CmpSetsZOnEquality : Prop :=
  ∀ (a0 a1 : Reg) (s : State),
    ∃ t, exec (.cmp a0 a1) s = .next t ∧ Completed s t ∧ t.pc = s.pc + 1 ∧
      (t.z = true ↔ s.getReg a0 = s.getReg a1) ∧
      RegsKeptBut [] s t ∧ StackKept s t ∧ MemKept s t ∧ t.status = s.status

/-- R104: BSR finds the greatest set bit among bits 23..0, or answers -1, and sets Z exactly when it found one. -/
def Obligations.BsrFindsTheHighestOfBits23To0 : Prop :=
  ∀ (a0 a1 : Reg) (s : State),
    ∃ t, exec (.bsr a0 a1) s = .next t ∧ Completed s t ∧ t.pc = s.pc + 1 ∧
      (t.z = true ↔ ∃ j, j ≤ 23 ∧ (s.getReg a0).getLsbD j = true) ∧
      (t.z = true → a1 ≠ 0 → (t.getReg a1).toNat ≤ 23 ∧ (s.getReg a0).getLsbD (t.getReg a1).toNat = true ∧
        ∀ j, (t.getReg a1).toNat < j → j ≤ 23 → (s.getReg a0).getLsbD j = false) ∧
      (t.z = false → a1 ≠ 0 → sval (t.getReg a1) = -1) ∧
      RegsKeptBut [a1] s t ∧ StackKept s t ∧ MemKept s t ∧ t.status = s.status

/-! ### Loads and stores -/

/-- R105: LW loads the word at x[arg0] + off into x[arg1] when that integer is an address, and faults MEM_OUT_OF_RANGE
keeping everything when it is not. -/
def Obligations.LwLoadsOrFaults : Prop :=
  ∀ (a0 a1 : Reg) (off : Int) (s : State) (ea : Int), ea = s.advance.effectiveAddress a0 off →
    ea = sval (s.getReg a0) + off ∧
    (0 ≤ ea ∧ ea < 4096 → ∃ t, exec (.lw a0 a1 off) s = .next t ∧ Completed s t ∧ t.pc = s.pc + 1 ∧
      (a1 ≠ 0 → t.getReg a1 = s.mem.read ea.toNat) ∧
      RegsKeptBut [a1] s t ∧ t.z = s.z ∧ StackKept s t ∧ MemKept s t ∧ t.status = s.status) ∧
    (ea < 0 ∨ 4096 ≤ ea →
      exec (.lw a0 a1 off) s = .next { s with status := .faulted, cause := .memOutOfRange, faddr := s.pc })

/-- R106: SW stores x[arg1] at x[arg0] + off when that integer is an address and changes no other word, and faults
MEM_OUT_OF_RANGE writing nothing when it is not. -/
def Obligations.SwStoresOrFaults : Prop :=
  ∀ (a0 a1 : Reg) (off : Int) (s : State) (ea : Int), s.mem.wf = true → ea = s.advance.effectiveAddress a0 off →
    ea = sval (s.getReg a0) + off ∧
    (0 ≤ ea ∧ ea < 4096 → ∃ t, exec (.sw a0 a1 off) s = .next t ∧ Completed s t ∧ t.pc = s.pc + 1 ∧
      t.mem.read ea.toNat = s.getReg a1 ∧ (∀ a : Nat, a ≠ ea.toNat → t.mem.read a = s.mem.read a) ∧ t.mem.wf = true ∧
      RegsKeptBut [] s t ∧ t.z = s.z ∧ StackKept s t ∧ t.status = s.status) ∧
    (ea < 0 ∨ 4096 ≤ ea →
      exec (.sw a0 a1 off) s = .next { s with status := .faulted, cause := .memOutOfRange, faddr := s.pc })

/-- R49: a store into the next instruction's word is seen by the very next step, which fetches what was stored. -/
def Obligations.StoreIsSeenByTheNextFetch : Prop :=
  ∀ (s : State) (a0 a1 : Reg) (off : Int) (w : Word), s.mem.wf = true → Fetches s w → decode w = .ok (.sw a0 a1 off) →
    sval (s.getReg a0) + off = sval s.pc + 1 → sval s.pc < 4095 →
    ∃ t, step s = .next t ∧ Fetches t (s.getReg a1)

/-! ### Control -/

/-- R108, R112, R113 with R107: BEQ, JMA and JE add the offset to A + 1 exactly when their condition holds, and change
nothing but pc. -/
def Obligations.BranchesAddTheOffsetWhenTaken : Prop :=
  ∀ (a0 a1 : Reg) (off : Int) (s : State),
    (∃ t, exec (.beq a0 a1 off) s = .next t ∧ Completed s t ∧
      t.pc = (if s.getReg a0 = s.getReg a1 then s.pc + 1 + BitVec.ofInt 32 off else s.pc + 1) ∧
      RegsKeptBut [] s t ∧ t.z = s.z ∧ StackKept s t ∧ MemKept s t ∧ t.status = s.status) ∧
    (∃ t, exec (.jma a0 a1 off) s = .next t ∧ Completed s t ∧
      t.pc = (if (s.getReg a1).ult (s.getReg a0) then s.pc + 1 + BitVec.ofInt 32 off else s.pc + 1) ∧
      RegsKeptBut [] s t ∧ t.z = s.z ∧ StackKept s t ∧ MemKept s t ∧ t.status = s.status) ∧
    (∃ t, exec (.je off) s = .next t ∧ Completed s t ∧
      t.pc = (if s.z = true then s.pc + 1 + BitVec.ofInt 32 off else s.pc + 1) ∧
      RegsKeptBut [] s t ∧ t.z = s.z ∧ StackKept s t ∧ MemKept s t ∧ t.status = s.status)

/-- R107: from a fetched instruction a taken branch (BEQ of any two registers that hold equal words, JMA, JE, JMNE)
completes, without a fault, at exactly A + 1 + offset as an integer, with no wrap and no check of the target; one that is
not taken completes at A + 1. (`Completed`'s count clause is the spec's decision D17.) -/
def Obligations.TakenBranchLandsExactly : Prop :=
  ∀ (a0 a1 : Reg) (off : Int) (s : State), 0 ≤ sval s.pc → sval s.pc < 4096 → -16384 ≤ off → off ≤ 16383 →
    (s.getReg a0 = s.getReg a1 → ∃ t, exec (.beq a0 a1 off) s = .next t ∧ Completed s t ∧ t.status = s.status ∧
      sval t.pc = sval s.pc + 1 + off) ∧
    (s.getReg a0 ≠ s.getReg a1 → ∃ t, exec (.beq a0 a1 off) s = .next t ∧ Completed s t ∧ t.status = s.status ∧
      sval t.pc = sval s.pc + 1) ∧
    ((s.getReg a1).toNat < (s.getReg a0).toNat → ∃ t, exec (.jma a0 a1 off) s = .next t ∧ Completed s t ∧
      t.status = s.status ∧ sval t.pc = sval s.pc + 1 + off) ∧
    ((s.getReg a0).toNat ≤ (s.getReg a1).toNat → ∃ t, exec (.jma a0 a1 off) s = .next t ∧ Completed s t ∧
      t.status = s.status ∧ sval t.pc = sval s.pc + 1) ∧
    (s.z = true → ∃ t, exec (.je off) s = .next t ∧ Completed s t ∧ t.status = s.status ∧
      sval t.pc = sval s.pc + 1 + off) ∧
    (s.z = false → ∃ t, exec (.je off) s = .next t ∧ Completed s t ∧ t.status = s.status ∧
      sval t.pc = sval s.pc + 1) ∧
    (s.sp ≤ 30 → s.getStk s.sp ≠ s.getStk (s.sp + 1) → ∃ t, exec (.jmne a0 a1 off) s = .next t ∧ Completed s t ∧
      t.status = s.status ∧ sval t.pc = sval s.pc + 1 + off) ∧
    (s.sp ≤ 30 → s.getStk s.sp = s.getStk (s.sp + 1) → ∃ t, exec (.jmne a0 a1 off) s = .next t ∧ Completed s t ∧
      t.status = s.status ∧ sval t.pc = sval s.pc + 1)

/-- R109 (that the link comes first is the spec's decision D16): JALR links A + 1 into x[arg1] and jumps to x[arg0], to 0
when arg0 is 0, and to the link just written when arg0 = arg1. -/
def Obligations.JalrLinksThenJumps : Prop :=
  ∀ (a0 a1 : Reg) (s : State),
    ∃ t, exec (.jalr a0 a1) s = .next t ∧ Completed s t ∧
      t.pc = (if a0 = 0 then 0 else if a1 = a0 then s.pc + 1 else s.getReg a0) ∧
      (a1 ≠ 0 → t.getReg a1 = s.pc + 1) ∧
      RegsKeptBut [a1] s t ∧ t.z = s.z ∧ StackKept s t ∧ MemKept s t ∧ t.status = s.status

/-- R110, R111: HALT sets the status to HALTED and records no fault, NOOP does nothing; both advance pc and are counted. -/
def Obligations.HaltHaltsAndNoopDoesNothing : Prop :=
  ∀ s : State,
    (∃ t, exec .halt s = .next t ∧ Completed s t ∧ t.pc = s.pc + 1 ∧ t.status = .halted ∧
      RegsKeptBut [] s t ∧ t.z = s.z ∧ StackKept s t ∧ MemKept s t) ∧
    (∃ t, exec .noop s = .next t ∧ Completed s t ∧ t.pc = s.pc + 1 ∧ t.status = s.status ∧
      RegsKeptBut [] s t ∧ t.z = s.z ∧ StackKept s t ∧ MemKept s t)

/-- R114: JMNE pops two entries and branches when they differ; with fewer than two it faults STACK_UNDERFLOW keeping
everything; its register fields have no effect. -/
def Obligations.JmnePopsTwoAndBranches : Prop :=
  ∀ (a0 a1 : Reg) (off : Int) (s : State),
    (s.sp ≤ 30 → ∃ t, exec (.jmne a0 a1 off) s = .next t ∧ Completed s t ∧ t.sp = s.sp + 2 ∧
      t.pc = (if s.getStk s.sp ≠ s.getStk (s.sp + 1) then s.pc + 1 + BitVec.ofInt 32 off else s.pc + 1) ∧
      (∀ j, t.getStk j = s.getStk j) ∧ RegsKeptBut [] s t ∧ t.z = s.z ∧ MemKept s t ∧ t.status = s.status) ∧
    (31 ≤ s.sp →
      exec (.jmne a0 a1 off) s = .next { s with status := .faulted, cause := .stackUnderflow, faddr := s.pc })

/-! ### The stack -/

/-- R120, R115: PUSH stores x[arg0] below the top and lowers sp; on a full stack it faults STACK_OVERFLOW. -/
def Obligations.PushStoresOrOverflows : Prop :=
  ∀ (a0 : Reg) (s : State), s.sp ≤ 32 →
    (0 < s.sp → ∃ t, exec (.push a0) s = .next t ∧ Completed s t ∧ t.pc = s.pc + 1 ∧ t.sp = s.sp - 1 ∧
      t.getStk (s.sp - 1) = s.getReg a0 ∧ (∀ j, j ≠ s.sp - 1 → t.getStk j = s.getStk j) ∧
      RegsKeptBut [] s t ∧ t.z = s.z ∧ MemKept s t ∧ t.status = s.status) ∧
    (s.sp = 0 → exec (.push a0) s = .next { s with status := .faulted, cause := .stackOverflow, faddr := s.pc })

/-- R119, R116: POP moves the top into x[arg0] and raises sp, leaving the entry's storage; on an empty stack it faults
STACK_UNDERFLOW. -/
def Obligations.PopLoadsOrUnderflows : Prop :=
  ∀ (a0 : Reg) (s : State), s.sp ≤ 32 →
    (s.sp < 32 → ∃ t, exec (.pop a0) s = .next t ∧ Completed s t ∧ t.pc = s.pc + 1 ∧ t.sp = s.sp + 1 ∧
      (a0 ≠ 0 → t.getReg a0 = s.getStk s.sp) ∧ (∀ j, t.getStk j = s.getStk j) ∧
      RegsKeptBut [a0] s t ∧ t.z = s.z ∧ MemKept s t ∧ t.status = s.status) ∧
    (s.sp = 32 → exec (.pop a0) s = .next { s with status := .faulted, cause := .stackUnderflow, faddr := s.pc })

/-- R118 (the wrap of -2147483648 is the spec's decision D4): NEG negates the top in place and sets Z exactly when the
result is 0; on an empty stack it faults STACK_UNDERFLOW. -/
def Obligations.NegNegatesTheTop : Prop :=
  ∀ s : State, s.sp ≤ 32 →
    (s.sp < 32 → ∃ t, exec .neg s = .next t ∧ Completed s t ∧ t.pc = s.pc + 1 ∧ t.sp = s.sp ∧
      (t.getStk s.sp).toNat = (2 ^ 32 - (s.getStk s.sp).toNat) % 2 ^ 32 ∧ (t.z = true ↔ t.getStk s.sp = 0) ∧
      (∀ j, j ≠ s.sp → t.getStk j = s.getStk j) ∧ RegsKeptBut [] s t ∧ MemKept s t ∧ t.status = s.status) ∧
    (s.sp = 32 → exec .neg s = .next { s with status := .faulted, cause := .stackUnderflow, faddr := s.pc })

/-- R117 (DIV_OVERFLOW and the order of the checks are the spec's decisions D6 and D9): IDIV replaces the two top entries
by the quotient of the second by the first, rounded toward zero, or faults with nothing kept. -/
def Obligations.IdivDividesOrFaults : Prop :=
  ∀ (s : State) (d n : Int), d = sval (s.getStk s.sp) → n = sval (s.getStk (s.sp + 1)) →
    (31 ≤ s.sp → exec .idiv s = .next { s with status := .faulted, cause := .stackUnderflow, faddr := s.pc }) ∧
    (s.sp ≤ 30 → d = 0 → exec .idiv s = .next { s with status := .faulted, cause := .divByZero, faddr := s.pc }) ∧
    (s.sp ≤ 30 → n = -2147483648 → d = -1 →
      exec .idiv s = .next { s with status := .faulted, cause := .divOverflow, faddr := s.pc }) ∧
    (s.sp ≤ 30 → d ≠ 0 → ¬ (n = -2147483648 ∧ d = -1) →
      ∃ t, exec .idiv s = .next t ∧ Completed s t ∧ t.pc = s.pc + 1 ∧ t.sp = s.sp + 1 ∧
        (sval (t.getStk (s.sp + 1))).natAbs = n.natAbs / d.natAbs ∧
        (0 ≤ n * d → 0 ≤ sval (t.getStk (s.sp + 1))) ∧ (n * d ≤ 0 → sval (t.getStk (s.sp + 1)) ≤ 0) ∧
        (∀ j, j ≠ s.sp + 1 → t.getStk j = s.getStk j) ∧
        RegsKeptBut [] s t ∧ t.z = s.z ∧ MemKept s t ∧ t.status = s.status)

/-- R115, R116: a push followed by a pop gives back the pushed word and leaves the stack as it was above it. -/
def Obligations.PopAfterPushGivesThePushedWord : Prop :=
  ∀ (a b : Reg) (s : State), 0 < s.sp → s.sp ≤ 32 →
    ∃ t u, exec (.push a) s = .next t ∧ exec (.pop b) t = .next u ∧
      (b ≠ 0 → u.getReg b = s.getReg a) ∧ u.sp = s.sp ∧ (∀ j, s.sp ≤ j → u.getStk j = s.getStk j)

/-! ### Who writes what -/

/-- R17: whatever an instruction does, it writes no register outside the table's column "writes" (r0's forcing apart). -/
def Obligations.RegistersOutsideTheTableAreKept : Prop :=
  ∀ (i : Instr) (s t : State), exec i s = .next t → RegsKeptBut (writtenRegs i) s t

/-- R17: no instruction reads a register outside the table's column "reads": two states that differ only in such a register
go to next states that differ at most in that register, and, where the instruction completes and writes that register (or
it is r0, which completing forces to 0), not at all. -/
def Obligations.RegistersOutsideTheTableAreNotRead : Prop :=
  ∀ (i : Instr) (r : Reg) (s s' : State), r ∉ readRegs i → SameButReg r s s' →
    ∃ t t', exec i s = .next t ∧ exec i s' = .next t' ∧ SameButReg r t t' ∧
      (Completed s t → r = 0 ∨ r ∈ writtenRegs i → t' = t)

/-- R21, R42, R25, R87: only CMP, NEG and BSR change Z; only SW changes a word of memory; only PUSH, POP, IDIV, NEG and
JMNE change the stack; only BEQ, JALR, JMA, JE and JMNE leave pc elsewhere than A + 1 when they complete; only HALT
changes the status when it does not become FAULTED. -/
def Obligations.OnlyTheNamedInstructionsWrite : Prop :=
  ∀ (i : Instr) (s t : State), exec i s = .next t →
    (t.z ≠ s.z → (∃ a b, i = .cmp a b) ∨ i = .neg ∨ ∃ a b, i = .bsr a b) ∧
    (¬ MemKept s t → ∃ a b off, i = .sw a b off) ∧
    (¬ StackKept s t → (∃ a, i = .push a) ∨ (∃ a, i = .pop a) ∨ i = .idiv ∨ i = .neg ∨ ∃ a b off, i = .jmne a b off) ∧
    (t.status ≠ .faulted → t.pc ≠ s.pc + 1 → (∃ a b off, i = .beq a b off) ∨ (∃ a b, i = .jalr a b) ∨
      (∃ a b off, i = .jma a b off) ∨ (∃ off, i = .je off) ∨ ∃ a b off, i = .jmne a b off) ∧
    (t.status ≠ .faulted → t.status ≠ s.status → i = .halt)

/-- R25, I9: no instruction reads an entry below sp: two states that differ only there step to states that differ only
there, and show the same status and the same live stack. -/
def Obligations.DeadStackEntriesAreUnobservable : Prop :=
  ∀ s s' : State, SameButDeadEntries s s' →
    ∃ t t', step s = .next t ∧ step s' = .next t' ∧ SameButDeadEntries t t' ∧ t'.statusView = t.statusView ∧
      t'.liveStack = t.liveStack

/-! ### Invariants and runs -/

/-- The state after reset meets the invariant. -/
def Obligations.ResetMeetsTheInvariant : Prop := State.reset.Inv

/-- R16, R26, R29: every step keeps r0 = 0, sp in [0, 32], the canonical memory and the fault record's meaning. -/
def Obligations.StepKeepsTheInvariant : Prop := ∀ s t : State, s.Inv → step s = .next t → t.Inv

/-- Every operation of the host keeps the invariant. -/
def Obligations.HostOperationsKeepTheInvariant : Prop := ∀ (op : HostOp) (s : State), s.Inv → (hostOp op s).1.Inv

/-- Whatever the host loads, preloads and starts after reset, every number of steps answers a state that meets the
invariant: sp in [0, 32] at all times (R26) and r0 = 0 between instructions (R16). -/
def Obligations.EveryReachableStateMeetsTheInvariant : Prop :=
  ∀ (ops : List HostOp) (k : Nat), ∃ t, Host.Core.run core k (hostOps ops State.reset) = .next t ∧ t.Inv

/-- R30 (what the count counts is the spec's decision D17), R142: a run of `k` steps that still goes on has counted `k`
instructions; one that has ended did so at a step `j + 1` of the run, before which it was RUNNING, and has counted `j + 1`
instructions where HALT ended it and `j` where a fault did; an ended run stays as it ended. -/
def Obligations.CountIsTheNumberOfCompletedSteps : Prop :=
  ∀ (s t : State) (k : Nat), s.status = .running → Host.Core.run core k s = .next t →
    (t.status = .running ∨ t.Ended) ∧ (t.status = .running → t.count = s.count + k) ∧
    (t.Ended → ∃ (j : Nat) (u : State), j < k ∧ Host.Core.run core j s = .next u ∧ u.status = .running ∧
      Host.Core.run core (j + 1) s = .next t ∧
      (t.status = .halted → t.count = s.count + (j + 1)) ∧ (t.status = .faulted → t.count = s.count + j)) ∧
    (t.Ended → ∀ m, Host.Core.run core (k + m) s = .next t)

/-! ### The host's operations -/

/-- R135: reset gives, in any status, the state of the table (its values but sp's and r0's are the spec's decisions D10,
D12, D26 and D29). -/
def Obligations.ResetValues : Prop :=
  ∀ s : State, (hostOp .reset s).1 = State.reset ∧ State.reset.pc = 0 ∧ (∀ r, State.reset.getReg r = 0) ∧
    State.reset.z = false ∧ State.reset.sp = 32 ∧ (∀ j, State.reset.getStk j = 0) ∧ (∀ a, State.reset.mem.read a = 0) ∧
    State.reset.status = .idle ∧ State.reset.cause = .none ∧ State.reset.faddr = 0 ∧ State.reset.count = 0

/-- R136 (all-or-nothing is the spec's decision D25): in IDLE a load of at most 4096 words puts them at addresses from 0
and changes nothing else; a longer load fails and changes nothing. -/
def Obligations.LoadPlacesTheWords : Prop :=
  ∀ (s : State) (ws : List Word), s.status = .idle → s.mem.wf = true →
    (ws.length ≤ 4096 → (hostOp (.load ws) s).2 = .done ∧
      (∀ a : Nat, (hostOp (.load ws) s).1.mem.read a = (ws[a]?).getD (s.mem.read a)) ∧
      (hostOp (.load ws) s).1 = { s with mem := (hostOp (.load ws) s).1.mem }) ∧
    (4096 < ws.length → hostOp (.load ws) s = (s, .loadError))

/-- R82, R136: the machine-code lines of words load exactly those words (that a loaded line has the syntax of a literal
is the model's choice, log 15). -/
def Obligations.MachineCodeLinesLoadTheirWords : Prop :=
  ∀ (s : State) (ws : List Word), hostOp (.loadText (ws.map renderWord)) s = hostOp (.load ws) s

/-- R137 to R140: outside IDLE load, preload and start change nothing (that load and preload are then ignored is read from
R140, log 16); preload never changes r0. -/
def Obligations.HostWritesOnlyInIdle : Prop :=
  (∀ (s : State) (op : HostOp), s.status ≠ .idle → op ≠ .reset → hostOp op s = (s, .ignored)) ∧
  (∀ (s : State) (v : Word), hostOp (.preload 0 v) s = (s, .ignored)) ∧
  (∀ (s : State) (r q : Reg) (v : Word), s.status = .idle → r ≠ 0 →
    (hostOp (.preload r v) s).1.getReg q = if q = r then v else s.getReg q)

/-- R139: reset, load, preload, start, from any state, give a RUNNING block at pc 0 with the words loaded, the register
set, every other register 0, an empty stack, Z false and nothing counted (the reset values are the spec's D10, D12, D26). -/
def Obligations.BootGivesARunningBlock : Prop :=
  ∀ (s : State) (ws : List Word) (r : Reg) (v : Word), ws.length ≤ 4096 → r ≠ 0 →
    ∃ t, hostOps [.reset, .load ws, .preload r v, .start] s = t ∧ t.status = .running ∧ t.pc = 0 ∧
      (∀ q, t.getReg q = if q = r then v else 0) ∧ (∀ a : Nat, t.mem.read a = (ws[a]?).getD 0) ∧
      t.sp = 32 ∧ t.z = false ∧ t.count = 0 ∧ t.cause = .none ∧ t.Inv

/-- R25, R141: the stack the trace shows is the live entries stk[sp], stk[sp + 1], …, stk[31], top first. -/
def Obligations.TraceShowsTheLiveStack : Prop :=
  ∀ (s : State) (loaded k : Nat), s.sp ≤ 32 →
    (s.trace loaded).stack.length = 32 - s.sp ∧
    ((s.trace loaded).stack[k]? = if s.sp + k < 32 then some (s.getStk (s.sp + k)) else none)

/-! ### The assembler -/

/-- R68, R107 (the property S5 of spec/95_test_vectors.md), with R67 at the boundary: a branch assembled at address A with a
symbolic target at address T, fetched at A and taken, sets pc to exactly T, for every T the encoder accepts but
A + 16385, whose offset collides with -16384. -/
def Obligations.AssembledBranchReachesItsLabel : Prop :=
  ∀ (syms : Symbols) (A T : Nat) (x y l : Token) (label : Option Token) (w : Word) (s : State),
    syms.lookup l = some T → parseInt l = none → sval s.pc = A → Fetches s w →
    (emitLine syms A ⟨label, ['b', 'e', 'q'], [x, y, l]⟩ = .ok w →
      ∃ a b, registerOperand x = .ok a ∧ registerOperand y = .ok b ∧
        (s.getReg a = s.getReg b → ∃ t, step s = .next t ∧ sval t.pc = landing A T)) ∧
    (emitLine syms A ⟨label, ['j', 'm', 'a'], [x, y, l]⟩ = .ok w →
      ∃ a b, registerOperand x = .ok a ∧ registerOperand y = .ok b ∧
        ((s.getReg b).toNat < (s.getReg a).toNat → ∃ t, step s = .next t ∧ sval t.pc = landing A T)) ∧
    (emitLine syms A ⟨label, ['j', 'm', 'n', 'e'], [x, y, l]⟩ = .ok w →
      s.sp ≤ 30 → s.getStk s.sp ≠ s.getStk (s.sp + 1) → ∃ t, step s = .next t ∧ sval t.pc = landing A T) ∧
    (emitLine syms A ⟨label, ['j', 'e'], [l]⟩ = .ok w → s.z = true → ∃ t, step s = .next t ∧ sval t.pc = landing A T)

/-- R69: the symbolic operand of lw and sw is the label's address with no adjustment; a literal is used as it is. -/
def Obligations.LoadStoreSymbolsAreAbsolute : Prop :=
  ∀ (syms : Symbols) (A : Nat) (a b : Reg) (x y l : Token) (label : Option Token) (v : Int),
    registerOperand x = .ok a → registerOperand y = .ok b →
    (parseInt l = some v ∨ parseInt l = none ∧ ∃ T : Nat, syms.lookup l = some T ∧ v = T) →
    emitLine syms A ⟨label, ['l', 'w'], [x, y, l]⟩ = emitInstr (.lw a b v) ∧
    emitLine syms A ⟨label, ['s', 'w'], [x, y, l]⟩ = emitInstr (.sw a b v)

/-- R78: a register operand is accepted exactly when it is one or more digits and nothing else, with a value in [0, 7],
and then names that register; every other text is a malformed operand. (That digits are those of ASCII is the model's choice,
log 14; that the error carries the operand is the model's choice, log 22.) -/
def Obligations.RegisterOperandsAreDigitsUpToSeven : Prop :=
  ∀ t : Token,
    (∀ r : Reg, registerOperand t = .ok r ↔ t ≠ [] ∧ (∀ c ∈ t, c.isDigit = true) ∧ digitsValue t = r.val) ∧
    ((∀ r : Reg, registerOperand t ≠ .ok r) → registerOperand t = .error (.malformedOperand t))

/-- R75, R79, R71: a mnemonic outside the table is an illegal-opcode error with the mnemonic and its address; an undefined
symbol in any operand that may be one (the branches', that of `lw` and `sw`, `.fill`'s) is an error with its name. -/
def Obligations.UnknownNamesAreReported : Prop :=
  ∀ (syms : Symbols) (A : Nat) (label : Option Token) (m l : Token) (ops : List Token),
    (m ∉ mnemonicTable.map Prod.fst → emitLine syms A ⟨label, m, ops⟩ = .error (.illegalOpcode m A)) ∧
    (parseInt l = none → syms.lookup l = none →
      emitLine syms A ⟨label, ['j', 'e'], [l]⟩ = .error (.undefinedSymbol l) ∧
      emitLine syms A ⟨label, ['.', 'f', 'i', 'l', 'l'], [l]⟩ = .error (.undefinedSymbol l) ∧
      ∀ (a b : Reg) (x y : Token), registerOperand x = .ok a → registerOperand y = .ok b →
        emitLine syms A ⟨label, ['l', 'w'], [x, y, l]⟩ = .error (.undefinedSymbol l) ∧
        emitLine syms A ⟨label, ['s', 'w'], [x, y, l]⟩ = .error (.undefinedSymbol l) ∧
        emitLine syms A ⟨label, ['b', 'e', 'q'], [x, y, l]⟩ = .error (.undefinedSymbol l) ∧
        emitLine syms A ⟨label, ['j', 'm', 'a'], [x, y, l]⟩ = .error (.undefinedSymbol l) ∧
        emitLine syms A ⟨label, ['j', 'm', 'n', 'e'], [x, y, l]⟩ = .error (.undefinedSymbol l))

/-- R70 (the range check is the spec's decision D23): `.fill` emits a literal or a symbol's address verbatim, or a
RANGE_ERROR when no word holds it. -/
def Obligations.FillIsVerbatim : Prop :=
  ∀ (syms : Symbols) (A : Nat) (l : Token) (label : Option Token) (v : Int),
    (parseInt l = some v ∨ parseInt l = none ∧ ∃ T : Nat, syms.lookup l = some T ∧ v = T) →
    (-2147483648 ≤ v → v ≤ 2147483647 →
      ∃ w, emitLine syms A ⟨label, ['.', 'f', 'i', 'l', 'l'], [l]⟩ = .ok w ∧ sval w = v) ∧
    (v < -2147483648 ∨ 2147483647 < v →
      emitLine syms A ⟨label, ['.', 'f', 'i', 'l', 'l'], [l]⟩ = .error (.rangeError v))

/-- R76, R77: when the labels are accepted, no label is entered twice, each starts with a letter, goes on with letters and
digits only and has at most 6 characters (that letters and digits are those of ASCII is the model's choice, log 14), and
each has the address of the line that carries it. -/
def Obligations.LabelsAreUniqueAndAddressTheirLines : Prop :=
  ∀ (lines : List SourceLine) (syms : Symbols), collectLabels 0 [] lines = .ok syms →
    (syms.map Prod.fst).Nodup ∧
    (∀ (l : Token) (a : Nat), (l, a) ∈ syms ↔ ∃ line, lines[a]? = some line ∧ line.label = some l) ∧
    (∀ (l : Token) (a : Nat), (l, a) ∈ syms → l.length ≤ 6 ∧
      ∃ c cs, l = c :: cs ∧ c.isAlpha = true ∧ ∀ d ∈ cs, d.isAlpha = true ∨ d.isDigit = true)

/-- R77, R71: an assembly that succeeds emits one word per non-blank line, the k-th the word of the k-th line at address
k; so a program of n non-blank lines occupies addresses 0..n-1. -/
def Obligations.OneWordPerNonBlankLine : Prop :=
  ∀ (maxLine : Nat) (source : List Text) (ws : List Word), assembleWith maxLine source = .ok ws →
    ws.length = (source.filterMap parseLine).length ∧
    ∃ syms, collectLabels 0 [] (source.filterMap parseLine) = .ok syms ∧
      ∀ (k : Nat) (line : SourceLine) (w : Word), (source.filterMap parseLine)[k]? = some line → ws[k]? = some w →
        emitLine syms k line = .ok w
end

