-- ==== Sys2Proof/Laws/Arith.lean ====
section
/-! SUPPORT. What the arithmetic of Machine/Arith.lean is, in BitVec's own operations, and what BSR's scan finds. -/

namespace Sys2Proof.Machine

@[simp] theorem wrap_sval (a : Word) : wrap (sval a) = a := BitVec.ofInt_toInt

theorem addW_eq (a b : Word) : addW a b = a + b := by
  simp [addW, BitVec.ofInt_add]

theorem subW_eq (a b : Word) : subW a b = a - b := by
  apply BitVec.eq_of_toInt_eq
  simp [subW, BitVec.toInt_sub]

theorem negW_eq (a : Word) : negW a = -a := by
  simp [negW, BitVec.ofInt_neg]

/-- SHL's amount is the value of the low five bits (R101). -/
theorem shiftAmount_eq (b : Word) : shiftAmount b = b.toNat % 32 := by
  show (b &&& 31#32).toNat = _
  rw [BitVec.toNat_and]
  exact Nat.and_two_pow_sub_one_eq_mod b.toNat 5

theorem shlW_eq (a b : Word) : shlW a b = a <<< (b.toNat % 32) := by
  have h : shlW a b = a * BitVec.ofNat 32 (2 ^ shiftAmount b) := by
    simp only [shlW, wrap, sval, BitVec.ofInt_mul, BitVec.ofInt_toInt]
    congr 1
  rw [h, shiftAmount_eq, BitVec.shiftLeft_eq_mul_twoPow]
  congr 1
  apply BitVec.eq_of_toNat_eq
  simp [BitVec.toNat_twoPow]

/-- CMP's Z is equality (R103, D33). -/
theorem cmpZ_eq (a b : Word) : cmpZ a b = decide (a = b) := by
  simp only [cmpZ, subW_eq, decide_eq_decide]
  exact sub_eq_zero

/-- What a scan that finds a bit has found: a set bit with none set above it. -/
theorem highestBitBelow_some {v : Word} {n i : Nat} (h : highestBitBelow v n = some i) :
    i < n ∧ v.getLsbD i = true ∧ ∀ j, i < j → j < n → v.getLsbD j = false := by
  induction n with
  | zero => simp [highestBitBelow] at h
  | succ n ih =>
    unfold highestBitBelow at h
    split at h
    · rename_i hb
      cases h
      exact ⟨by omega, hb, fun j h1 h2 => by omega⟩
    · rename_i hb
      obtain ⟨h1, h2, h3⟩ := ih h
      refine ⟨by omega, h2, fun j hj hn => ?_⟩
      by_cases e : j = n
      · subst e; simpa using hb
      · exact h3 j hj (by omega)

/-- A scan that finds nothing met no set bit. -/
theorem highestBitBelow_none {v : Word} {n : Nat} (h : highestBitBelow v n = none) :
    ∀ j, j < n → v.getLsbD j = false := by
  induction n with
  | zero => intro j hj; omega
  | succ n ih =>
    unfold highestBitBelow at h
    split at h
    · cases h
    · rename_i hb
      intro j hj
      by_cases e : j = n
      · subst e; simpa using hb
      · exact ih h j (by omega)

end Sys2Proof.Machine
end

