-- ==== Sys2Proof/Laws/Word.lean ====
section
/-! SUPPORT. The parameters of Config.lean as numerals where a type or a bound names them (spec/00_scope.md R5, R6): what
`omega` and `simp` need of a word's width, its ends and a register's range. -/

namespace Sys2Proof

theorem Config.numRegs_eq : Config.numRegs = 8 := rfl
theorem Config.wordBits_eq : Config.wordBits = 32 := rfl
theorem Config.stackWords_eq : Config.stackWords = 32 := rfl

/-- The number of words. -/
theorem Config.two_pow_wordBits : 2 ^ Config.wordBits = 4294967296 := rfl

/-- The number of raw offsets. -/
theorem Config.two_pow_offBits : 2 ^ Config.offBits = 32768 := rfl

theorem wordMin_eq : wordMin = -2147483648 := rfl
theorem wordMax_eq : wordMax = 2147483647 := rfl

/-- A register number is one of 0..7. -/
theorem Reg.val_lt (r : Reg) : r.val < 8 := r.isLt

/-- The unsigned range of a word. -/
theorem uval_lt (w : Word) : w.toNat < 4294967296 := w.isLt

/-- The signed range of a word. -/
theorem le_sval (w : Word) : -2147483648 ≤ w.toInt := BitVec.le_toInt w
theorem sval_lt (w : Word) : w.toInt < 2147483648 := BitVec.toInt_lt

/-- `wrap` inside the signed range keeps the value. -/
theorem sval_wrap {n : Int} (h1 : -2147483648 ≤ n) (h2 : n < 2147483648) : (wrap n).toInt = n :=
  BitVec.toInt_ofInt_eq_self (by decide) h1 h2

end Sys2Proof
end

