-- ==== Sys2Proof/Laws/Decode.lean ====
section
/-! SUPPORT. The fields of a packed word, and sign extension against masking. -/

namespace Sys2Proof

/-- The value of a packed word whose operands fit their fields. -/
theorem pack_toNat {op a0 a1 low : Nat} (hop : op < 21) (h0 : a0 < 8) (h1 : a1 < 8) (hl : low < 32768) :
    (pack op a0 a1 low).toNat = op * 2097152 + a0 * 262144 + a1 * 32768 + low := by
  simp only [pack, BitVec.toNat_ofNat, Config.opcLo, Config.arg0Lo, Config.arg1Lo, Config.wordBits]
  omega

/-- arg2 stands at bit 0 of an R3 word. -/
@[simp] theorem packArg2_eq (a2 : Reg) : packArg2 a2 = a2.val := by simp [packArg2]

theorem packArg2_lt (a2 : Reg) : packArg2 a2 < 32768 := by
  have := a2.val_lt
  rw [packArg2_eq]; omega

/-- Every field of a packed word (R51, R66). -/
theorem decodeFields_pack {op low : Nat} (a0 a1 : Reg) (hop : op < 21) (hl : low < 32768) :
    decodeFields (pack op a0 a1 low) =
      { opcode := op, legal := true, arg0 := a0, arg1 := a1, arg2 := regOf (low % 8), off := sext15 low } := by
  have b0 := a0.val_lt
  have b1 := a1.val_lt
  have h := pack_toNat hop b0 b1 hl
  have e1 : field (pack op a0 a1 low) 31 21 = op := by simp only [field, h]; omega
  have e2 : field (pack op a0 a1 low) 20 18 = a0.val := by simp only [field, h]; omega
  have e3 : field (pack op a0 a1 low) 17 15 = a1.val := by simp only [field, h]; omega
  have e4 : field (pack op a0 a1 low) 2 0 = low % 8 := by simp only [field, h]; omega
  have e5 : field (pack op a0 a1 low) 14 0 = low := by simp only [field, h]; omega
  simp only [decodeFields, Config.opcHi, Config.opcLo, Config.arg0Hi, Config.arg0Lo, Config.arg1Hi, Config.arg1Lo,
    Config.arg2Hi, Config.arg2Lo, Config.offBits, Config.numOpcodes, e1, e2, e3, e4]
  have hr0 : regOf a0.val = a0 := Fin.ext (Nat.mod_eq_of_lt a0.isLt)
  have hr1 : regOf a1.val = a1 := Fin.ext (Nat.mod_eq_of_lt a1.isLt)
  simp only [hr0, hr1, hop, decide_true]
  rw [show (15 - 1 : Nat) = 14 from rfl, e5]

/-- The opcode field is what is left of a word above bit 20 (R52). -/
theorem decodeFields_opcode (w : Word) : (decodeFields w).opcode = w.toNat / 2097152 := by
  have h := uval_lt w
  show w.toNat / 2 ^ 21 % 2 ^ 11 = _
  omega

/-- A word is legal by its opcode alone (R52, R60). -/
theorem decodeFields_legal (w : Word) : (decodeFields w).legal = decide ((decodeFields w).opcode < 21) := rfl

/-- All a decoding can do (R60, R61): an illegal opcode is refused by its number; a legal one gives an instruction with
that opcode. -/
theorem decode_cases (w : Word) :
    (20 < w.toNat / 2097152 ∧ decode w = .error (.illegalOpcode (w.toNat / 2097152))) ∨
    (w.toNat / 2097152 ≤ 20 ∧ ∃ i, decode w = .ok i ∧ i.opcode = w.toNat / 2097152) := by
  have ho := decodeFields_opcode w
  have hl := decodeFields_legal w
  rw [ho] at hl
  simp only [decode, instrOfFields, ho, hl]
  generalize w.toNat / 2097152 = n
  by_cases h : n < 21
  · right
    refine ⟨by omega, ?_⟩
    simp only [h, decide_true, Bool.true_eq_false, if_false]
    interval_cases n <;> exact ⟨_, rfl, rfl⟩
  · left
    refine ⟨by omega, ?_⟩
    simp only [h, decide_false, if_true]

/-- The sign bit of a 15-bit field by its size. -/
theorem sext15_eq {f : Nat} (h : f < 32768) : sext15 f = if 16384 ≤ f then (f : Int) - 32768 else (f : Int) := by
  have hb : f.testBit (Config.offBits - 1) = decide (16384 ≤ f) := by
    show f.testBit 14 = _
    rw [Nat.testBit_eq_decide_div_mod_eq]
    congr 1
    apply propext
    constructor <;> intro h' <;> omega
  simp only [sext15, hb, decide_eq_true_eq, Config.two_pow_offBits]
  rfl

/-- Masking is the value modulo 2^15 (R65). -/
theorem maskOffset_eq (v : Int) : maskOffset v = (v % 32768).toNat := rfl

theorem maskOffset_lt (v : Int) : maskOffset v < 32768 := by
  rw [maskOffset_eq]; omega

/-- Sign extension undoes masking inside [OFF_MIN, OFF_MAX] (R54, R65). -/
theorem sext15_maskOffset {v : Int} (h1 : -16384 ≤ v) (h2 : v ≤ 16383) : sext15 (maskOffset v) = v := by
  rw [sext15_eq (maskOffset_lt v), maskOffset_eq]
  split <;> omega

end Sys2Proof
end

