-- ==== Sys2Proof/Laws/State.lean ====
section
/-! SUPPORT. One lemma per field of State per update, each true by rfl, and the reading of registers and stack entries
after an update. -/

namespace Sys2Proof.Machine

@[simp] theorem State.setReg_pc (s : State) (r : Reg) (v : Word) : (s.setReg r v).pc = s.pc := rfl
@[simp] theorem State.setReg_reg (s : State) (r : Reg) (v : Word) : (s.setReg r v).reg = s.reg.set r.val v := rfl
@[simp] theorem State.setReg_z (s : State) (r : Reg) (v : Word) : (s.setReg r v).z = s.z := rfl
@[simp] theorem State.setReg_sp (s : State) (r : Reg) (v : Word) : (s.setReg r v).sp = s.sp := rfl
@[simp] theorem State.setReg_stk (s : State) (r : Reg) (v : Word) : (s.setReg r v).stk = s.stk := rfl
@[simp] theorem State.setReg_mem (s : State) (r : Reg) (v : Word) : (s.setReg r v).mem = s.mem := rfl
@[simp] theorem State.setReg_status (s : State) (r : Reg) (v : Word) : (s.setReg r v).status = s.status := rfl
@[simp] theorem State.setReg_cause (s : State) (r : Reg) (v : Word) : (s.setReg r v).cause = s.cause := rfl
@[simp] theorem State.setReg_faddr (s : State) (r : Reg) (v : Word) : (s.setReg r v).faddr = s.faddr := rfl
@[simp] theorem State.setReg_count (s : State) (r : Reg) (v : Word) : (s.setReg r v).count = s.count := rfl

@[simp] theorem State.setPc_pc (s : State) (v : Word) : (s.setPc v).pc = v := rfl
@[simp] theorem State.setPc_reg (s : State) (v : Word) : (s.setPc v).reg = s.reg := rfl
@[simp] theorem State.setPc_z (s : State) (v : Word) : (s.setPc v).z = s.z := rfl
@[simp] theorem State.setPc_sp (s : State) (v : Word) : (s.setPc v).sp = s.sp := rfl
@[simp] theorem State.setPc_stk (s : State) (v : Word) : (s.setPc v).stk = s.stk := rfl
@[simp] theorem State.setPc_mem (s : State) (v : Word) : (s.setPc v).mem = s.mem := rfl
@[simp] theorem State.setPc_status (s : State) (v : Word) : (s.setPc v).status = s.status := rfl
@[simp] theorem State.setPc_cause (s : State) (v : Word) : (s.setPc v).cause = s.cause := rfl
@[simp] theorem State.setPc_faddr (s : State) (v : Word) : (s.setPc v).faddr = s.faddr := rfl
@[simp] theorem State.setPc_count (s : State) (v : Word) : (s.setPc v).count = s.count := rfl

@[simp] theorem State.setZ_pc (s : State) (b : Bool) : (s.setZ b).pc = s.pc := rfl
@[simp] theorem State.setZ_reg (s : State) (b : Bool) : (s.setZ b).reg = s.reg := rfl
@[simp] theorem State.setZ_z (s : State) (b : Bool) : (s.setZ b).z = b := rfl
@[simp] theorem State.setZ_sp (s : State) (b : Bool) : (s.setZ b).sp = s.sp := rfl
@[simp] theorem State.setZ_stk (s : State) (b : Bool) : (s.setZ b).stk = s.stk := rfl
@[simp] theorem State.setZ_mem (s : State) (b : Bool) : (s.setZ b).mem = s.mem := rfl
@[simp] theorem State.setZ_status (s : State) (b : Bool) : (s.setZ b).status = s.status := rfl
@[simp] theorem State.setZ_cause (s : State) (b : Bool) : (s.setZ b).cause = s.cause := rfl
@[simp] theorem State.setZ_faddr (s : State) (b : Bool) : (s.setZ b).faddr = s.faddr := rfl
@[simp] theorem State.setZ_count (s : State) (b : Bool) : (s.setZ b).count = s.count := rfl

@[simp] theorem State.setStatus_pc (s : State) (st : Status) : (s.setStatus st).pc = s.pc := rfl
@[simp] theorem State.setStatus_reg (s : State) (st : Status) : (s.setStatus st).reg = s.reg := rfl
@[simp] theorem State.setStatus_z (s : State) (st : Status) : (s.setStatus st).z = s.z := rfl
@[simp] theorem State.setStatus_sp (s : State) (st : Status) : (s.setStatus st).sp = s.sp := rfl
@[simp] theorem State.setStatus_stk (s : State) (st : Status) : (s.setStatus st).stk = s.stk := rfl
@[simp] theorem State.setStatus_mem (s : State) (st : Status) : (s.setStatus st).mem = s.mem := rfl
@[simp] theorem State.setStatus_status (s : State) (st : Status) : (s.setStatus st).status = st := rfl
@[simp] theorem State.setStatus_cause (s : State) (st : Status) : (s.setStatus st).cause = s.cause := rfl
@[simp] theorem State.setStatus_faddr (s : State) (st : Status) : (s.setStatus st).faddr = s.faddr := rfl
@[simp] theorem State.setStatus_count (s : State) (st : Status) : (s.setStatus st).count = s.count := rfl

@[simp] theorem State.setStk_pc (s : State) (j : Nat) (v : Word) : (s.setStk j v).pc = s.pc := rfl
@[simp] theorem State.setStk_reg (s : State) (j : Nat) (v : Word) : (s.setStk j v).reg = s.reg := rfl
@[simp] theorem State.setStk_z (s : State) (j : Nat) (v : Word) : (s.setStk j v).z = s.z := rfl
@[simp] theorem State.setStk_sp (s : State) (j : Nat) (v : Word) : (s.setStk j v).sp = s.sp := rfl
@[simp] theorem State.setStk_stk (s : State) (j : Nat) (v : Word) : (s.setStk j v).stk = s.stk.setIfInBounds j v := rfl
@[simp] theorem State.setStk_mem (s : State) (j : Nat) (v : Word) : (s.setStk j v).mem = s.mem := rfl
@[simp] theorem State.setStk_status (s : State) (j : Nat) (v : Word) : (s.setStk j v).status = s.status := rfl
@[simp] theorem State.setStk_cause (s : State) (j : Nat) (v : Word) : (s.setStk j v).cause = s.cause := rfl
@[simp] theorem State.setStk_faddr (s : State) (j : Nat) (v : Word) : (s.setStk j v).faddr = s.faddr := rfl
@[simp] theorem State.setStk_count (s : State) (j : Nat) (v : Word) : (s.setStk j v).count = s.count := rfl

@[simp] theorem State.setSp_pc (s : State) (n : Nat) : (s.setSp n).pc = s.pc := rfl
@[simp] theorem State.setSp_reg (s : State) (n : Nat) : (s.setSp n).reg = s.reg := rfl
@[simp] theorem State.setSp_z (s : State) (n : Nat) : (s.setSp n).z = s.z := rfl
@[simp] theorem State.setSp_sp (s : State) (n : Nat) : (s.setSp n).sp = n := rfl
@[simp] theorem State.setSp_stk (s : State) (n : Nat) : (s.setSp n).stk = s.stk := rfl
@[simp] theorem State.setSp_mem (s : State) (n : Nat) : (s.setSp n).mem = s.mem := rfl
@[simp] theorem State.setSp_status (s : State) (n : Nat) : (s.setSp n).status = s.status := rfl
@[simp] theorem State.setSp_cause (s : State) (n : Nat) : (s.setSp n).cause = s.cause := rfl
@[simp] theorem State.setSp_faddr (s : State) (n : Nat) : (s.setSp n).faddr = s.faddr := rfl
@[simp] theorem State.setSp_count (s : State) (n : Nat) : (s.setSp n).count = s.count := rfl

/-- The post-increment pc (R87) as a word sum. -/
@[simp] theorem State.advance_pc (s : State) : s.advance.pc = s.pc + 1 := by
  show wrap (sval s.pc + 1) = s.pc + 1
  simp [BitVec.ofInt_add]
@[simp] theorem State.advance_reg (s : State) : s.advance.reg = s.reg := rfl
@[simp] theorem State.advance_z (s : State) : s.advance.z = s.z := rfl
@[simp] theorem State.advance_sp (s : State) : s.advance.sp = s.sp := rfl
@[simp] theorem State.advance_stk (s : State) : s.advance.stk = s.stk := rfl
@[simp] theorem State.advance_mem (s : State) : s.advance.mem = s.mem := rfl
@[simp] theorem State.advance_status (s : State) : s.advance.status = s.status := rfl
@[simp] theorem State.advance_cause (s : State) : s.advance.cause = s.cause := rfl
@[simp] theorem State.advance_faddr (s : State) : s.advance.faddr = s.faddr := rfl
@[simp] theorem State.advance_count (s : State) : s.advance.count = s.count := rfl

@[simp] theorem State.complete_pc (s : State) : s.complete.pc = s.pc := rfl
@[simp] theorem State.complete_reg (s : State) : s.complete.reg = s.reg.set 0 0 := rfl
@[simp] theorem State.complete_z (s : State) : s.complete.z = s.z := rfl
@[simp] theorem State.complete_sp (s : State) : s.complete.sp = s.sp := rfl
@[simp] theorem State.complete_stk (s : State) : s.complete.stk = s.stk := rfl
@[simp] theorem State.complete_mem (s : State) : s.complete.mem = s.mem := rfl
@[simp] theorem State.complete_status (s : State) : s.complete.status = s.status := rfl
@[simp] theorem State.complete_cause (s : State) : s.complete.cause = s.cause := rfl
@[simp] theorem State.complete_faddr (s : State) : s.complete.faddr = s.faddr := rfl
@[simp] theorem State.complete_count (s : State) : s.complete.count = s.count + 1 := rfl

@[simp] theorem State.takeFault_pc (s : State) (c : FaultCause) : (s.takeFault c).pc = s.pc := rfl
@[simp] theorem State.takeFault_reg (s : State) (c : FaultCause) : (s.takeFault c).reg = s.reg := rfl
@[simp] theorem State.takeFault_z (s : State) (c : FaultCause) : (s.takeFault c).z = s.z := rfl
@[simp] theorem State.takeFault_sp (s : State) (c : FaultCause) : (s.takeFault c).sp = s.sp := rfl
@[simp] theorem State.takeFault_stk (s : State) (c : FaultCause) : (s.takeFault c).stk = s.stk := rfl
@[simp] theorem State.takeFault_mem (s : State) (c : FaultCause) : (s.takeFault c).mem = s.mem := rfl
@[simp] theorem State.takeFault_status (s : State) (c : FaultCause) : (s.takeFault c).status = .faulted := rfl
@[simp] theorem State.takeFault_cause (s : State) (c : FaultCause) : (s.takeFault c).cause = c := rfl
@[simp] theorem State.takeFault_faddr (s : State) (c : FaultCause) : (s.takeFault c).faddr = s.pc := rfl
@[simp] theorem State.takeFault_count (s : State) (c : FaultCause) : (s.takeFault c).count = s.count := rfl

/-! ### Registers -/

/-- Reading a register after a register write. -/
theorem State.getReg_setReg (s : State) (r r' : Reg) (v : Word) :
    (s.setReg r v).getReg r' = if r' = r then v else s.getReg r' := by
  simp only [State.getReg, State.setReg, Vector.getElem_set]
  by_cases h : r' = r
  · simp [h]
  · have : ¬ r.val = r'.val := fun e => h (Fin.ext e.symm)
    simp [h, this]

@[simp] theorem State.getReg_setReg_self (s : State) (r : Reg) (v : Word) : (s.setReg r v).getReg r = v := by
  simp [State.getReg_setReg]

theorem State.getReg_setReg_ne (s : State) (r r' : Reg) (v : Word) (h : r' ≠ r) :
    (s.setReg r v).getReg r' = s.getReg r' := by
  simp [State.getReg_setReg, h]

@[simp] theorem State.getReg_setPc (s : State) (v : Word) (r : Reg) : (s.setPc v).getReg r = s.getReg r := rfl
@[simp] theorem State.getReg_setZ (s : State) (b : Bool) (r : Reg) : (s.setZ b).getReg r = s.getReg r := rfl
@[simp] theorem State.getReg_setStatus (s : State) (st : Status) (r : Reg) : (s.setStatus st).getReg r = s.getReg r := rfl
@[simp] theorem State.getReg_setStk (s : State) (j : Nat) (v : Word) (r : Reg) : (s.setStk j v).getReg r = s.getReg r := rfl
@[simp] theorem State.getReg_setSp (s : State) (n : Nat) (r : Reg) : (s.setSp n).getReg r = s.getReg r := rfl
@[simp] theorem State.getReg_advance (s : State) (r : Reg) : (s.advance).getReg r = s.getReg r := rfl
@[simp] theorem State.getReg_takeFault (s : State) (c : FaultCause) (r : Reg) : (s.takeFault c).getReg r = s.getReg r := rfl

/-- Reading a register after the end of an instruction (R88). -/
theorem State.getReg_complete (t : State) (r : Reg) : t.complete.getReg r = if r = 0 then 0 else t.getReg r :=
  State.getReg_setReg t 0 r 0

@[simp] theorem State.getReg_complete_zero (t : State) : t.complete.getReg 0 = 0 := by
  simp [State.getReg_complete]

/-! ### Stack entries -/

/-- Reading a stack entry after a stack write; only indices 0..31 are stored. -/
theorem State.getStk_setStk (s : State) (j k : Nat) (v : Word) :
    (s.setStk j v).getStk k = if k = j ∧ j < 32 then v else s.getStk k := by
  simp only [State.getStk, State.setStk, Vector.getElem?_setIfInBounds]
  by_cases h : j = k
  · subst h
    by_cases hj : j < 32
    · simp [hj]
    · simp [hj]
  · simp [h, Ne.symm h]

theorem State.getStk_setStk_self (s : State) (j : Nat) (v : Word) (h : j < 32) : (s.setStk j v).getStk j = v := by
  simp [State.getStk_setStk, h]

theorem State.getStk_setStk_ne (s : State) (j k : Nat) (v : Word) (h : k ≠ j) :
    (s.setStk j v).getStk k = s.getStk k := by
  simp [State.getStk_setStk, h]

@[simp] theorem State.getStk_setReg (s : State) (r : Reg) (v : Word) (k : Nat) : (s.setReg r v).getStk k = s.getStk k := rfl
@[simp] theorem State.getStk_setPc (s : State) (v : Word) (k : Nat) : (s.setPc v).getStk k = s.getStk k := rfl
@[simp] theorem State.getStk_setZ (s : State) (b : Bool) (k : Nat) : (s.setZ b).getStk k = s.getStk k := rfl
@[simp] theorem State.getStk_setStatus (s : State) (st : Status) (k : Nat) : (s.setStatus st).getStk k = s.getStk k := rfl
@[simp] theorem State.getStk_setSp (s : State) (n : Nat) (k : Nat) : (s.setSp n).getStk k = s.getStk k := rfl
@[simp] theorem State.getStk_advance (s : State) (k : Nat) : (s.advance).getStk k = s.getStk k := rfl
@[simp] theorem State.getStk_complete (s : State) (k : Nat) : (s.complete).getStk k = s.getStk k := rfl
@[simp] theorem State.getStk_takeFault (s : State) (c : FaultCause) (k : Nat) : (s.takeFault c).getStk k = s.getStk k := rfl

/-! ### Branches -/

/-- A branch target (R107) as a word sum. -/
theorem State.branchTarget_eq (t : State) (off : Int) : t.branchTarget off = t.pc + BitVec.ofInt 32 off := by
  simp [State.branchTarget, BitVec.ofInt_add]

/-- A branch writes pc exactly when its condition holds (R107). -/
@[simp] theorem State.branchIf_pc (t : State) (c : Bool) (off : Int) :
    (t.branchIf c off).pc = if c then t.pc + BitVec.ofInt 32 off else t.pc := by
  cases c <;> simp [State.branchIf, State.branchTarget_eq]

/-- A branch changes nothing but pc. -/
theorem State.branchIf_eq (t : State) (c : Bool) (off : Int) :
    t.branchIf c off = { t with pc := (t.branchIf c off).pc } := by
  cases c <;> rfl

@[simp] theorem State.branchIf_reg (t : State) (c : Bool) (off : Int) : (t.branchIf c off).reg = t.reg := by
  cases c <;> rfl

@[simp] theorem State.branchIf_z (t : State) (c : Bool) (off : Int) : (t.branchIf c off).z = t.z := by
  cases c <;> rfl

@[simp] theorem State.branchIf_sp (t : State) (c : Bool) (off : Int) : (t.branchIf c off).sp = t.sp := by
  cases c <;> rfl

@[simp] theorem State.branchIf_stk (t : State) (c : Bool) (off : Int) : (t.branchIf c off).stk = t.stk := by
  cases c <;> rfl

@[simp] theorem State.branchIf_mem (t : State) (c : Bool) (off : Int) : (t.branchIf c off).mem = t.mem := by
  cases c <;> rfl

@[simp] theorem State.branchIf_status (t : State) (c : Bool) (off : Int) : (t.branchIf c off).status = t.status := by
  cases c <;> rfl

@[simp] theorem State.branchIf_cause (t : State) (c : Bool) (off : Int) : (t.branchIf c off).cause = t.cause := by
  cases c <;> rfl

@[simp] theorem State.branchIf_faddr (t : State) (c : Bool) (off : Int) : (t.branchIf c off).faddr = t.faddr := by
  cases c <;> rfl

@[simp] theorem State.branchIf_count (t : State) (c : Bool) (off : Int) : (t.branchIf c off).count = t.count := by
  cases c <;> rfl

@[simp] theorem State.getReg_branchIf (t : State) (c : Bool) (off : Int) (r : Reg) :
    (t.branchIf c off).getReg r = t.getReg r := by
  cases c <;> rfl

@[simp] theorem State.getStk_branchIf (t : State) (c : Bool) (off : Int) (k : Nat) :
    (t.branchIf c off).getStk k = t.getStk k := by
  cases c <;> rfl

end Sys2Proof.Machine
end

