-- ==== Sys2Proof/Laws/Memory.lean ====
section
/-! SUPPORT. The laws of memory: every operation keeps the canonical form, a read after a write gives the written word, and
other words stay. -/

namespace Sys2Proof.Machine

theorem Memory.wfFrom_mono {m : Memory} {lo lo' : Nat} (h : lo' ≤ lo) (hm : Memory.wfFrom lo m = true) :
    Memory.wfFrom lo' m = true := by
  cases m with
  | nil => rfl
  | cons p rest =>
    obtain ⟨b, w⟩ := p
    simp only [Memory.wfFrom, Bool.and_eq_true, decide_eq_true_eq] at hm ⊢
    exact ⟨⟨⟨by omega, hm.1.1.2⟩, hm.1.2⟩, hm.2⟩

/-- Below its first possible address a canonical memory reads 0. -/
theorem Memory.read_below {m : Memory} {lo a : Nat} (hm : Memory.wfFrom lo m = true) (h : a < lo) :
    Memory.read m a = 0 := by
  induction m generalizing lo with
  | nil => rfl
  | cons p rest ih =>
    obtain ⟨b, w⟩ := p
    simp only [Memory.wfFrom, Bool.and_eq_true, decide_eq_true_eq] at hm
    have hb : b ≠ a := by omega
    simp only [Memory.read, hb, if_false]
    exact ih hm.2 (by omega)

/-- A write from address `lo` on keeps the canonical form from `lo` on. -/
theorem Memory.wfFrom_write {m : Memory} {lo a : Nat} (v : Word) (hm : Memory.wfFrom lo m = true) (hlo : lo ≤ a)
    (ha : a < Config.memWords) : Memory.wfFrom lo (Memory.write m a v) = true := by
  induction m generalizing lo with
  | nil =>
    by_cases hv : v = 0
    · simp [Memory.write, hv, Memory.wfFrom]
    · simp only [Memory.write, hv, if_false, Memory.wfFrom, Bool.and_eq_true, decide_eq_true_eq]
      exact ⟨⟨⟨hlo, ha⟩, hv⟩, trivial⟩
  | cons p rest ih =>
    obtain ⟨b, w⟩ := p
    have hm' := hm
    simp only [Memory.wfFrom, Bool.and_eq_true, decide_eq_true_eq] at hm
    obtain ⟨⟨⟨h1, h2⟩, h3⟩, h4⟩ := hm
    unfold Memory.write
    split
    · split
      · exact hm'
      · rename_i hab hv
        simp only [Memory.wfFrom, Bool.and_eq_true, decide_eq_true_eq]
        exact ⟨⟨⟨hlo, ha⟩, hv⟩, ⟨⟨⟨by omega, h2⟩, h3⟩, h4⟩⟩
    · split
      · rename_i hab
        subst hab
        split
        · exact Memory.wfFrom_mono (by omega) h4
        · rename_i hv
          simp only [Memory.wfFrom, Bool.and_eq_true, decide_eq_true_eq]
          exact ⟨⟨⟨hlo, ha⟩, hv⟩, h4⟩
      · simp only [Memory.wfFrom, Bool.and_eq_true, decide_eq_true_eq]
        exact ⟨⟨⟨h1, h2⟩, h3⟩, ih h4 (by omega)⟩

/-- A write inside the array keeps the canonical form. -/
theorem Memory.wf_write {m : Memory} {a : Nat} (v : Word) (hm : m.wf = true) (ha : a < 4096) :
    (m.write a v).wf = true :=
  Memory.wfFrom_write v hm (Nat.zero_le a) ha

/-- Read after write, same address. -/
theorem Memory.read_write_same {m : Memory} {lo : Nat} (a : Nat) (v : Word) (hm : Memory.wfFrom lo m = true) :
    Memory.read (Memory.write m a v) a = v := by
  induction m generalizing lo with
  | nil =>
    by_cases hv : v = 0
    · rw [Memory.write, if_pos hv, hv]; rfl
    · rw [Memory.write, if_neg hv]; simp [Memory.read]
  | cons p rest ih =>
    obtain ⟨b, w⟩ := p
    have hm' := hm
    simp only [Memory.wfFrom, Bool.and_eq_true, decide_eq_true_eq] at hm
    unfold Memory.write
    split
    · rename_i hab
      split
      · rename_i hv
        have hb : b ≠ a := by omega
        simp only [Memory.read, hb, if_false, hv]
        exact Memory.read_below hm.2 (by omega)
      · simp [Memory.read]
    · split
      · rename_i hab
        subst hab
        split
        · rename_i hv
          rw [hv]
          exact Memory.read_below hm.2 (by omega)
        · simp [Memory.read]
      · rename_i hab
        have hb : b ≠ a := fun e => hab e.symm
        simp only [Memory.read, hb, if_false]
        exact ih hm.2

/-- A write leaves every other word alone. -/
theorem Memory.read_write_ne (m : Memory) {a a' : Nat} (v : Word) (h : a' ≠ a) :
    Memory.read (Memory.write m a v) a' = Memory.read m a' := by
  induction m with
  | nil =>
    by_cases hv : v = 0
    · rw [Memory.write, if_pos hv]
    · rw [Memory.write, if_neg hv]; simp [Memory.read, h.symm]
  | cons p rest ih =>
    obtain ⟨b, w⟩ := p
    unfold Memory.write
    split
    · split <;> simp [Memory.read, h.symm]
    · split
      · rename_i hab
        subst hab
        split <;> simp [Memory.read, h.symm]
      · simp [Memory.read, ih]

/-- A canonical memory reads 0 outside the array. -/
theorem Memory.read_outside {m : Memory} {lo a : Nat} (hm : Memory.wfFrom lo m = true) (ha : 4096 ≤ a) :
    Memory.read m a = 0 := by
  induction m generalizing lo with
  | nil => rfl
  | cons p rest ih =>
    obtain ⟨b, w⟩ := p
    simp only [Memory.wfFrom, Bool.and_eq_true, decide_eq_true_eq, Config.memWords] at hm
    have hb : b ≠ a := by omega
    simp only [Memory.read, hb, if_false]
    exact ih hm.2

/-- Storing words inside the array keeps the canonical form. -/
theorem Memory.wf_writeAll {m : Memory} {a : Nat} (ws : List Word) (hm : m.wf = true) (h : a + ws.length ≤ 4096) :
    (m.writeAll a ws).wf = true := by
  induction ws generalizing m a with
  | nil => exact hm
  | cons w ws ih =>
    simp only [List.length_cons] at h
    exact ih (Memory.wf_write w hm (by omega)) (by omega)

/-- What an address reads as after storing words from `a` on. -/
theorem Memory.read_writeAll {m : Memory} {a : Nat} (ws : List Word) (hm : m.wf = true) (h : a + ws.length ≤ 4096)
    (k : Nat) : Memory.read (m.writeAll a ws) k =
      if hk : a ≤ k ∧ k - a < ws.length then ws[k - a]'hk.2 else Memory.read m k := by
  induction ws generalizing m a with
  | nil => simp [Memory.writeAll]
  | cons w ws ih =>
    simp only [List.length_cons] at h
    rw [Memory.writeAll, ih (Memory.wf_write w hm (by omega)) (by omega)]
    by_cases hk : a = k
    · subst hk
      have h1 : ¬ (a + 1 ≤ a ∧ a - (a + 1) < ws.length) := by omega
      simp [Memory.read_write_same a w hm]
    · by_cases h2 : a + 1 ≤ k ∧ k - (a + 1) < ws.length
      · have h3 : a ≤ k ∧ k - a < (w :: ws).length := by simp only [List.length_cons]; omega
        have h4 : k - a = (k - (a + 1)) + 1 := by omega
        simp only [h2, h3, and_self, dite_true]
        simp [h4]
      · have h3 : ¬ (a ≤ k ∧ k - a < (w :: ws).length) := by simp only [List.length_cons]; omega
        simp only [h2, h3, dite_false]
        exact Memory.read_write_ne m w (Ne.symm hk)

theorem State.reset_mem_wf : State.reset.mem.wf = true := rfl

end Sys2Proof.Machine
end

