-- ==== Sys2Proof/Laws/Ops.lean ====
section
/-! SUPPORT. For each shared operation, one lemma that says everything it can do. -/

namespace Sys2Proof.Machine

theorem inMemory_iff (a : Int) : inMemory a = true ↔ 0 ≤ a ∧ a < 4096 := by
  simp [inMemory]

theorem fitsWord_iff (v : Int) : fitsWord v = true ↔ -2147483648 ≤ v ∧ v ≤ 2147483647 := by
  show (decide (wordMin ≤ v) && decide (v ≤ wordMax)) = true ↔ _
  rw [wordMin_eq, wordMax_eq]
  simp

/-- All a memory read can do (R38). -/
theorem State.memRead_cases (s : State) (a : Int) :
    ((0 ≤ a ∧ a < 4096) ∧ s.memRead a = .ok (s.mem.read a.toNat)) ∨
    (¬ (0 ≤ a ∧ a < 4096) ∧ s.memRead a = .error .memOutOfRange) := by
  by_cases h : inMemory a = true
  · exact .inl ⟨(inMemory_iff a).1 h, by simp [State.memRead, h]⟩
  · exact .inr ⟨fun h' => h ((inMemory_iff a).2 h'), by simp [State.memRead, h]⟩

/-- All a memory write can do (R39). -/
theorem State.memWrite_cases (s : State) (a : Int) (v : Word) :
    ((0 ≤ a ∧ a < 4096) ∧ s.memWrite a v = .ok { s with mem := s.mem.write a.toNat v }) ∨
    (¬ (0 ≤ a ∧ a < 4096) ∧ s.memWrite a v = .error .memOutOfRange) := by
  by_cases h : inMemory a = true
  · exact .inl ⟨(inMemory_iff a).1 h, by simp [State.memWrite, h]⟩
  · exact .inr ⟨fun h' => h ((inMemory_iff a).2 h'), by simp [State.memWrite, h]⟩

/-- All a push can do (R115). -/
theorem State.pushWord_cases (s : State) (v : Word) :
    (s.sp = 0 ∧ s.pushWord v = .error .stackOverflow) ∨
    (0 < s.sp ∧ s.pushWord v = .ok ((s.setSp (s.sp - 1)).setStk (s.sp - 1) v)) := by
  by_cases h : s.sp = 0
  · exact .inl ⟨h, by simp [State.pushWord, h]⟩
  · exact .inr ⟨by omega, by simp [State.pushWord, h]⟩

/-- All a pop can do (R116). -/
theorem State.popWord_cases (s : State) :
    (32 ≤ s.sp ∧ s.popWord = .error .stackUnderflow) ∨
    (s.sp < 32 ∧ s.popWord = .ok (s.getStk s.sp, s.setSp (s.sp + 1))) := by
  by_cases h : s.sp < 32
  · have : s.depth ≠ 0 := by simp [State.depth]; omega
    exact .inr ⟨h, by simp [State.popWord, this]⟩
  · have : s.depth = 0 := by simp [State.depth]; omega
    exact .inl ⟨by omega, by simp [State.popWord, this]⟩

/-- All a division can do (R117). -/
theorem divide_cases (n d : Word) :
    (d = 0 ∧ divide n d = .error .divByZero) ∨
    (d ≠ 0 ∧ (sval n = -2147483648 ∧ sval d = -1) ∧ divide n d = .error .divOverflow) ∨
    (d ≠ 0 ∧ ¬ (sval n = -2147483648 ∧ sval d = -1) ∧ divide n d = .ok (tdivW n d)) := by
  by_cases h0 : d = 0
  · exact .inl ⟨h0, by simp [divide, h0]⟩
  by_cases h1 : sval n = -2147483648 ∧ sval d = -1
  · exact .inr (.inl ⟨h0, h1, by rw [divide, wordMin_eq, if_neg h0, if_pos h1]⟩)
  · exact .inr (.inr ⟨h0, h1, by rw [divide, wordMin_eq, if_neg h0, if_neg h1]⟩)

/-- A body that completes. -/
theorem runBody_ok {s t : State} {body : State → Except FaultCause State} (h : body s.advance = .ok t) :
    runBody s body = .next t.complete := by
  simp [runBody, h]

/-- A body that raises a fault. -/
theorem runBody_error {s : State} {c : FaultCause} {body : State → Except FaultCause State}
    (h : body s.advance = .error c) : runBody s body = .next (s.takeFault c) := by
  simp [runBody, h]

/-- All a running of a body can do: complete the working copy, or record a fault on the state before (R89, R90). -/
theorem runBody_cases (s : State) (body : State → Except FaultCause State) :
    (∃ t, body s.advance = .ok t ∧ runBody s body = .next t.complete) ∨
    (∃ c, body s.advance = .error c ∧ runBody s body = .next (s.takeFault c)) := by
  cases h : body s.advance with
  | ok t => exact .inl ⟨t, rfl, runBody_ok h⟩
  | error c => exact .inr ⟨c, rfl, runBody_error h⟩

/-- All a fetch can do (R84, R85). -/
theorem State.fetch_cases (s : State) :
    ((0 ≤ sval s.pc ∧ sval s.pc < 4096) ∧ s.fetch = .ok (s.mem.read (sval s.pc).toNat)) ∨
    (¬ (0 ≤ sval s.pc ∧ sval s.pc < 4096) ∧ s.fetch = .error .badPc) := by
  by_cases h : inMemory (sval s.pc) = true
  · exact .inl ⟨(inMemory_iff _).1 h, by simp [State.fetch, h]⟩
  · exact .inr ⟨fun h' => h ((inMemory_iff _).2 h'), by simp [State.fetch, h]⟩

end Sys2Proof.Machine
end

