-- ==== Sys2Proof/Laws/Exec.lean ====
section
/-! SUPPORT. Every instruction is its body run on the working copy (spec/40_cycle.md R91), so that what holds of every
instruction is proved once about `runBody` and by cases on the body; and what a step is in each status. -/

namespace Sys2Proof.Machine

/-- The body an instruction runs on the working copy (R94). -/
def bodyOf : Instr → State → Except FaultCause State
  | .add a0 a1 a2, t => .ok (addBody a0 a1 a2 t)
  | .nand a0 a1 a2, t => .ok (nandBody a0 a1 a2 t)
  | .lw a0 a1 off, t => lwBody a0 a1 off t
  | .sw a0 a1 off, t => swBody a0 a1 off t
  | .beq a0 a1 off, t => .ok (beqBody a0 a1 off t)
  | .jalr a0 a1, t => .ok (jalrBody a0 a1 t)
  | .halt, t => .ok (t.setStatus .halted)
  | .noop, t => .ok t
  | .idiv, t => idivBody t
  | .dec a0, t => .ok (decBody a0 t)
  | .xadd a0 a1 a2, t => .ok (xaddBody a0 a1 a2 t)
  | .shl a0 a1 a2, t => .ok (shlBody a0 a1 a2 t)
  | .or a0 a1 a2, t => .ok (orBody a0 a1 a2 t)
  | .neg, t => negBody t
  | .jma a0 a1 off, t => .ok (jmaBody a0 a1 off t)
  | .jmne _ _ off, t => jmneBody off t
  | .cmp a0 a1, t => .ok (cmpBody a0 a1 t)
  | .je off, t => .ok (jeBody off t)
  | .bsr a0 a1, t => .ok (bsrBody a0 a1 t)
  | .pop a0, t => popBody a0 t
  | .push a0, t => pushBody a0 t

/-- Executing an instruction is running its body. -/
theorem exec_eq_runBody (i : Instr) (s : State) : exec i s = runBody s (bodyOf i) := by
  cases i <;> rfl

/-- All an instruction can do: complete its body's working copy, or record a fault on the state before it. -/
theorem exec_cases (i : Instr) (s : State) :
    (∃ t, bodyOf i s.advance = .ok t ∧ exec i s = .next t.complete) ∨
    (∃ c, bodyOf i s.advance = .error c ∧ exec i s = .next (s.takeFault c)) := by
  rw [exec_eq_runBody]
  exact runBody_cases s (bodyOf i)

theorem step_of_running {s : State} (h : s.status = .running) : step s = cycle s := by
  simp [step, h]

/-- Outside RUNNING a step changes nothing (R93). -/
theorem step_of_not_running {s : State} (h : s.status ≠ .running) : step s = .next s := by
  cases hs : s.status with
  | running => exact absurd hs h
  | idle => simp [step, hs, rest]
  | halted => simp [step, hs, rest]
  | faulted => simp [step, hs, rest]

/-- All a step of a RUNNING executor can do (R91): a PC or decode fault, or the decoded instruction. -/
theorem step_running_cases {s : State} (h : s.status = .running) :
    (∃ c, s.fetchInstr = .error c ∧ step s = .next (s.takeFault c)) ∨
    (∃ i, s.fetchInstr = .ok i ∧ step s = exec i s) := by
  rw [step_of_running h]
  cases hf : s.fetchInstr with
  | error c => exact .inl ⟨c, rfl, by simp [cycle, hf]⟩
  | ok i => exact .inr ⟨i, rfl, by simp [cycle, hf]⟩

/-- The word fetched decides the instruction (R85, R86). -/
theorem State.fetchInstr_of_fetch {s : State} {w : Word} (h : s.fetch = .ok w) :
    s.fetchInstr = match decode w with
      | .ok i => .ok i
      | .error _ => .error .illegalOpcode := by
  simp only [State.fetchInstr, h]
  cases decode w <;> rfl

end Sys2Proof.Machine
end

