-- ==== Sys2Proof/Laws/PerInstr.lean ====
section
/-! SUPPORT. Per-instruction families. EncodingIsLegal: the word of an instruction holds its opcode and lies in
[0, 44040191], so it is a non-negative integer and legal (spec/30_encoding.md R66). -/

namespace Sys2Proof.Laws

/-- R66: the encoded word has the instruction's opcode in bits 31:21 and is at most 44040191. -/
def EncodingIsLegal.Statement (i : Instr) : Prop :=
  field (encode i) 31 21 = i.opcode ∧ (encode i).toNat ≤ 44040191

theorem EncodingIsLegal.of_pack {op low : Nat} (a0 a1 : Reg) (hop : op < 21) (hl : low < 32768) :
    field (pack op a0 a1 low) 31 21 = op ∧ (pack op a0 a1 low).toNat ≤ 44040191 := by
  have h := pack_toNat hop a0.val_lt a1.val_lt hl
  have h0 := a0.val_lt
  have h1 := a1.val_lt
  constructor
  · simp only [field, h]; omega
  · omega

theorem EncodingIsLegal.add (a b c : Reg) : EncodingIsLegal.Statement (.add a b c) :=
  EncodingIsLegal.of_pack a b (by decide) (packArg2_lt c)

theorem EncodingIsLegal.nand (a b c : Reg) : EncodingIsLegal.Statement (.nand a b c) :=
  EncodingIsLegal.of_pack a b (by decide) (packArg2_lt c)

theorem EncodingIsLegal.lw (a b : Reg) (v : Int) : EncodingIsLegal.Statement (.lw a b v) :=
  EncodingIsLegal.of_pack a b (by decide) (maskOffset_lt v)

theorem EncodingIsLegal.sw (a b : Reg) (v : Int) : EncodingIsLegal.Statement (.sw a b v) :=
  EncodingIsLegal.of_pack a b (by decide) (maskOffset_lt v)

theorem EncodingIsLegal.beq (a b : Reg) (v : Int) : EncodingIsLegal.Statement (.beq a b v) :=
  EncodingIsLegal.of_pack a b (by decide) (maskOffset_lt v)

theorem EncodingIsLegal.jalr (a b : Reg) : EncodingIsLegal.Statement (.jalr a b) :=
  EncodingIsLegal.of_pack a b (by decide) (by decide)

theorem EncodingIsLegal.halt : EncodingIsLegal.Statement .halt :=
  EncodingIsLegal.of_pack 0 0 (by decide) (by decide)

theorem EncodingIsLegal.noop : EncodingIsLegal.Statement .noop :=
  EncodingIsLegal.of_pack 0 0 (by decide) (by decide)

theorem EncodingIsLegal.idiv : EncodingIsLegal.Statement .idiv :=
  EncodingIsLegal.of_pack 0 0 (by decide) (by decide)

theorem EncodingIsLegal.dec (a : Reg) : EncodingIsLegal.Statement (.dec a) :=
  EncodingIsLegal.of_pack a 0 (by decide) (by decide)

theorem EncodingIsLegal.xadd (a b c : Reg) : EncodingIsLegal.Statement (.xadd a b c) :=
  EncodingIsLegal.of_pack a b (by decide) (packArg2_lt c)

theorem EncodingIsLegal.shl (a b c : Reg) : EncodingIsLegal.Statement (.shl a b c) :=
  EncodingIsLegal.of_pack a b (by decide) (packArg2_lt c)

theorem EncodingIsLegal.or (a b c : Reg) : EncodingIsLegal.Statement (.or a b c) :=
  EncodingIsLegal.of_pack a b (by decide) (packArg2_lt c)

theorem EncodingIsLegal.neg : EncodingIsLegal.Statement .neg :=
  EncodingIsLegal.of_pack 0 0 (by decide) (by decide)

theorem EncodingIsLegal.jma (a b : Reg) (v : Int) : EncodingIsLegal.Statement (.jma a b v) :=
  EncodingIsLegal.of_pack a b (by decide) (maskOffset_lt v)

theorem EncodingIsLegal.jmne (a b : Reg) (v : Int) : EncodingIsLegal.Statement (.jmne a b v) :=
  EncodingIsLegal.of_pack a b (by decide) (maskOffset_lt v)

theorem EncodingIsLegal.cmp (a b : Reg) : EncodingIsLegal.Statement (.cmp a b) :=
  EncodingIsLegal.of_pack a b (by decide) (by decide)

theorem EncodingIsLegal.je (v : Int) : EncodingIsLegal.Statement (.je v) :=
  EncodingIsLegal.of_pack 0 0 (by decide) (maskOffset_lt v)

theorem EncodingIsLegal.bsr (a b : Reg) : EncodingIsLegal.Statement (.bsr a b) :=
  EncodingIsLegal.of_pack a b (by decide) (by decide)

theorem EncodingIsLegal.pop (a : Reg) : EncodingIsLegal.Statement (.pop a) :=
  EncodingIsLegal.of_pack a 0 (by decide) (by decide)

theorem EncodingIsLegal.push (a : Reg) : EncodingIsLegal.Statement (.push a) :=
  EncodingIsLegal.of_pack a 0 (by decide) (by decide)

end Sys2Proof.Laws
end

