-- ==== Sys2Proof/Tests/Slice0.lean ====
section
/-! SUPPORT. The model's own tests. Expected values come from spec/95_test_vectors.md (vector names in the comments) and
from the encoding patterns of spec/30_encoding.md R56 and R58. After them, for every obligation with hypotheses, a concrete
state and operands that meet them. -/

namespace Sys2Proof.Tests

open Sys2Proof Sys2Proof.Machine

/-! ### Well-formedness, parameters -/

/-- Every offset-carrying form is refused one past each end of [-16384, 16383] and accepted at the ends (R54). -/
theorem test_wellFormed_refuses_offsets :
    [Instr.lw 1 2 16384, .lw 1 2 (-16385), .sw 1 2 16384, .sw 1 2 (-16385), .beq 1 2 16384, .beq 1 2 (-16385),
     .jma 1 2 16384, .jma 1 2 (-16385), .jmne 1 2 16384, .jmne 1 2 (-16385), .je 16384, .je (-16385)].all
      (fun i => !i.wellFormed) = true ∧
    [Instr.lw 1 2 16383, .sw 1 2 (-16384), .je (-16384), .halt, .add 7 7 7].all Instr.wellFormed = true := by decide

/-- The types have the widths of R5's parameters. -/
theorem test_config_types :
    Word = BitVec Config.wordBits ∧ Reg = Fin Config.numRegs ∧ State.reset.stk.toList.length = Config.stackWords ∧
    State.reset.reg.toList.length = Config.numRegs := ⟨rfl, rfl, rfl, rfl⟩

/-! ### Decoding: every constructor's word, bit by bit from its pattern (opcode, arg0, arg1, rest) -/

theorem test_decode_r3 :
    decode 0b00000000000001010000000000000011 = .ok (.add 1 2 3) ∧
    decode 0b00000000001001010000000000000011 = .ok (.nand 1 2 3) ∧
    decode 0b00000001010001010000000000000011 = .ok (.xadd 1 2 3) ∧
    decode 0b00000001011001010000000000000011 = .ok (.shl 1 2 3) ∧
    decode 0b00000001100001010000000000000011 = .ok (.or 1 2 3) := by decide

theorem test_decode_r2i :
    decode 0b00000000010000001000000000000101 = .ok (.lw 0 1 5) ∧
    decode 0b00000000011000001000000000001001 = .ok (.sw 0 1 9) ∧
    decode 0b00000000100000000111111111111111 = .ok (.beq 0 0 (-1)) ∧
    decode 0b00000001110001010000000000000011 = .ok (.jma 1 2 3) ∧
    decode 0b00000001111011101100000000000000 = .ok (.jmne 3 5 (-16384)) := by decide

theorem test_decode_r2_r1_i_n :
    decode 0b00000000101010001000000000000000 = .ok (.jalr 2 1) ∧
    decode 0b00000010000001010000000000000000 = .ok (.cmp 1 2) ∧
    decode 0b00000010010001010000000000000000 = .ok (.bsr 1 2) ∧
    decode 0b00000001001001000000000000000000 = .ok (.dec 1) ∧
    decode 0b00000010011011000000000000000000 = .ok (.pop 3) ∧
    decode 0b00000010100001000000000000000000 = .ok (.push 1) ∧
    decode 0b00000010001000000111111111111010 = .ok (.je (-6)) ∧
    decode 0b00000000110000000000000000000000 = .ok .halt ∧
    decode 0b00000000111000000000000000000000 = .ok .noop ∧
    decode 0b00000001000000000000000000000000 = .ok .idiv ∧
    decode 0b00000001101000000000000000000000 = .ok .neg := by decide

/-- D-6, D-8, D-10, D-12 to D-15: don't-care bits and illegal words. -/
theorem test_decode_corners :
    decodeFields 2097151 = ⟨0, true, 7, 7, 7, -1⟩ ∧ decode 12599296 = .ok .halt ∧ decode 44040191 = .ok (.push 7) ∧
    decode 2147483647 = .error (.illegalOpcode 1023) ∧ decode 2147483648 = .error (.illegalOpcode 1024) ∧
    decode 4294967295 = .error (.illegalOpcode 2047) ∧ decode 360443 = .ok (.add 1 2 3) := by decide

/-- V1, V5 to V8, V15, V17. -/
theorem test_encode_vectors :
    encodeChecked (.beq 1 2 (-16384)) = .ok 8732672 ∧ encodeChecked (.beq 1 2 16383) = .ok 8732671 ∧
    encodeChecked (.beq 1 2 16384) = .ok 8732672 ∧ encodeChecked (.beq 1 2 16385) = .error (.rangeError 16385) ∧
    encodeChecked (.beq 1 2 (-16385)) = .error (.rangeError (-16385)) ∧ encodeChecked (.jalr 2 1) = .ok 11042816 ∧
    encodeChecked (.jmne 0 0 2) = .ok 31457282 := by decide

theorem test_decodeTableWord : decodeTableWord 32 42205184 = some (.push 1) ∧ decodeTableWord 32 44040192 = none := by decide

/-! ### One instruction each -/

/-- A RUNNING machine with the given pc, registers, stack (top first) and memory. -/
def machine (pc : Word) (regs : List (Reg × Word)) (stack : List Word) (mem : Memory) : State :=
  let s : State := { State.reset with pc := pc, mem := mem, status := .running }
  let s := regs.foldl (fun t p => t.setReg p.1 p.2) s
  stack.foldr (fun v t => (t.setSp (t.sp - 1)).setStk (t.sp - 1) v) s

/-- What the state after one instruction shows. -/
def after {α : Type} (i : Instr) (s : State) (f : State → α) : Option α :=
  match exec i s with
  | .next t => some (f t)
  | .fault _ => none
  | .refused _ => none

/-- A2: the sum wraps. -/
theorem test_add_wraps : after (.add 1 2 3) (machine 0 [(1, 2147483647), (2, 1)] [] [])
    (fun t => (t.getReg 3, t.pc, t.count)) = some (2147483648, 1, 1) := by decide

/-- A3. -/
theorem test_nand : after (.nand 1 2 3) (machine 0 [(1, 12), (2, 10)] [] []) (fun t => sval (t.getReg 3)) = some (-9) := by
  decide

/-- M8: the base is read before the destination is written. -/
theorem test_lw_base_is_destination : after (.lw 1 1 0) (machine 0 [(1, 100)] [] [(100, 3)]) (fun t => t.getReg 1) = some 3 := by
  decide

/-- M4: effective address 4096. -/
theorem test_lw_out_of_range : after (.lw 1 2 (-1)) (machine 5 [(1, 4097)] [] [])
    (fun t => (t.status, t.cause, t.faddr, t.pc, t.count)) = some (.faulted, .memOutOfRange, 5, 5, 0) := by decide

/-- M2. -/
theorem test_sw : after (.sw 0 1 9) (machine 0 [(1, 7)] [] [(9, 1)]) (fun t => t.mem) = some [(9, 7)] := by decide

/-- M7. -/
theorem test_sw_out_of_range : after (.sw 1 2 0) (machine 0 [(1, 4096), (2, 5)] [] [])
    (fun t => (t.cause, t.mem)) = some (.memOutOfRange, []) := by decide

/-- C1. -/
theorem test_beq_taken : after (.beq 1 2 3) (machine 10 [(1, 6), (2, 6)] [] []) (fun t => t.pc) = some 14 := by decide

/-- C4: an out-of-range target is no fault of the branch. -/
theorem test_beq_out_of_range : after (.beq 0 0 (-5)) (machine 0 [] [] []) (fun t => (sval t.pc, t.status)) =
    some (-4, .running) := by decide

/-- C6: the link is written first. -/
theorem test_jalr_same_register : after (.jalr 1 1) (machine 7 [(1, 20)] [] []) (fun t => (t.getReg 1, t.pc)) = some (8, 8) := by
  decide

/-- C7: register field 0 jumps to 0 although r0 holds the link meanwhile. -/
theorem test_jalr_zero_zero : after (.jalr 0 0) (machine 7 [] [] []) (fun t => (t.getReg 0, t.pc)) = some (0, 0) := by decide

/-- C12. -/
theorem test_halt : after .halt (machine 1 [] [] []) (fun t => (t.status, t.pc, t.count, t.cause)) =
    some (.halted, 2, 1, .none) := by decide

/-- C13. -/
theorem test_noop : after .noop (machine 3 [] [] []) (fun t => (t.status, t.pc)) = some (.running, 4) := by decide

/-- K2: rounding toward zero. -/
theorem test_idiv_rounds_to_zero : after .idiv (machine 0 [] [2, wrap (-7)] []) (fun t => (t.sp, sval (t.getStk 31))) =
    some (31, -3) := by decide

/-- K5. -/
theorem test_idiv_overflow : after .idiv (machine 0 [] [wrap (-1), wrap (-2147483648)] []) (fun t => (t.cause, t.sp)) =
    some (.divOverflow, 30) := by decide

/-- A6. -/
theorem test_dec_wraps : after (.dec 1) (machine 0 [(1, 2147483648)] [] []) (fun t => t.getReg 1) = some 2147483647 := by decide

/-- A9: arg2 = arg0. -/
theorem test_xadd_alias : after (.xadd 1 2 1) (machine 0 [(1, 3), (2, 4)] [] []) (fun t => (t.getReg 1, t.getReg 2)) =
    some (8, 4) := by decide

/-- A14: the transient value of r0. -/
theorem test_xadd_r0 : after (.xadd 0 2 3) (machine 0 [(2, 4), (3, 9)] [] [])
    (fun t => (t.getReg 0, t.getReg 2, t.getReg 3)) = some (0, 0, 4) := by decide

/-- A18: amount 31 from -1. -/
theorem test_shl_amount_is_masked : after (.shl 1 2 3) (machine 0 [(1, 5), (2, wrap (-1))] [] []) (fun t => t.getReg 3) =
    some 2147483648 := by decide

/-- A20. -/
theorem test_or : after (.or 1 2 3) (machine 0 [(1, 12), (2, 10)] [] []) (fun t => t.getReg 3) = some 14 := by decide

/-- K9b: the most negative value wraps to itself with Z false. -/
theorem test_neg_wraps : after .neg (machine 0 [] [wrap (-2147483648)] []) (fun t => (t.getStk 31, t.z, t.sp)) =
    some (2147483648, false, 31) := by decide

/-- K10. -/
theorem test_neg_underflow : after .neg (machine 0 [] [] []) (fun t => t.cause) = some .stackUnderflow := by decide

/-- C14: unsigned comparison. -/
theorem test_jma_unsigned : after (.jma 1 2 3) (machine 0 [(1, wrap (-1)), (2, 5)] [] []) (fun t => t.pc) = some 4 := by decide

/-- C15. -/
theorem test_jma_not_taken : after (.jma 1 2 3) (machine 0 [(1, 5), (2, wrap (-1))] [] []) (fun t => t.pc) = some 1 := by decide

/-- C21. -/
theorem test_jmne_taken : after (.jmne 0 0 2) (machine 6 [] [3, 4] []) (fun t => (t.pc, t.sp)) = some (9, 32) := by decide

/-- C23: the single entry stays. -/
theorem test_jmne_underflow : after (.jmne 0 0 2) (machine 6 [] [3] []) (fun t => (t.cause, t.faddr, t.sp)) =
    some (.stackUnderflow, 6, 31) := by decide

/-- A22. -/
theorem test_cmp_unequal : after (.cmp 1 2) (machine 0 [(1, 2147483648), (2, 2147483647)] [] []) (fun t => t.z) = some false := by
  decide

/-- C20. -/
theorem test_je_taken : after (.je (-6)) ((machine 5 [] [] []).setZ true) (fun t => (t.pc, t.z)) = some (0, true) := by decide

/-- A26: bit 24 is not scanned. -/
theorem test_bsr_bit_24 : after (.bsr 1 2) (machine 0 [(1, 16777216)] [] []) (fun t => (sval (t.getReg 2), t.z)) =
    some (-1, false) := by decide

/-- A28. -/
theorem test_bsr_same_register : after (.bsr 1 1) (machine 0 [(1, 8388608)] [] []) (fun t => (t.getReg 1, t.z)) =
    some (23, true) := by decide

/-- K11. -/
theorem test_pop : after (.pop 3) (machine 0 [] [3] []) (fun t => (t.getReg 3, t.sp)) = some (3, 32) := by decide

/-- K12. -/
theorem test_pop_underflow : after (.pop 3) (machine 0 [(3, 9)] [] []) (fun t => (t.cause, t.getReg 3)) =
    some (.stackUnderflow, 9) := by decide

/-- K14. -/
theorem test_push : after (.push 1) (machine 0 [(1, 10)] [] []) (fun t => (t.sp, t.getStk 31)) = some (31, 10) := by decide

/-- K15. -/
theorem test_push_overflow : after (.push 1) ((machine 0 [] [] []).setSp 0) (fun t => (t.cause, t.sp)) =
    some (.stackOverflow, 0) := by decide

/-! ### The step, the host, the assembler -/

/-- What the state after one step shows. -/
def stepped {α : Type} (s : State) (f : State → α) : Option α :=
  match step s with
  | .next t => some (f t)
  | .fault _ => none
  | .refused _ => none

/-- T1 to T5. -/
theorem test_step_faults :
    stepped (machine 4096 [] [] []) (fun t => (t.cause, t.faddr, t.count)) = some (.badPc, 4096, 0) ∧
    stepped (machine (wrap (-1)) [] [] []) (fun t => (t.cause, sval t.faddr)) = some (.badPc, -1) ∧
    stepped (machine 0 [] [] [(0, wrap (-1))]) (fun t => (t.cause, t.faddr, t.pc)) = some (.illegalOpcode, 0, 0) ∧
    stepped (machine 0 [] [] []) (fun t => (t.status, t.pc, t.count)) = some (.running, 1, 1) := by decide

/-- A word placed after reset is run by the first step. -/
theorem test_withFetchWord : stepped (State.reset.withFetchWord 32 42205184) (fun t => (t.pc, t.sp, t.count)) =
    some (1, 31, 1) := by decide

/-- T6, T8, T9. -/
theorem test_host_operations :
    hostOp .start (machine 0 [] [] []) = (machine 0 [] [] [], .ignored) ∧
    (hostOp (.load (List.replicate 4097 1)) State.reset).2 = .loadError ∧
    hostOp (.preload 0 5) State.reset = (State.reset, .ignored) ∧
    (hostOp (.loadText [['1', '2'], ['x']]) State.reset).2 = .loadError := by
  have h : ¬ (List.replicate 4097 (1 : Word)).length ≤ Config.memWords := by
    rw [List.length_replicate]; decide
  refine ⟨rfl, ?_, rfl, by decide⟩
  show (State.reset.load (List.replicate 4097 1)).2 = .loadError
  rw [State.load, if_pos (show State.reset.status = .idle from rfl), if_neg h]

/-- V10, V11. -/
theorem test_assemble_branches :
    assembleWith 80 [['\t', 'b', 'e', 'q', ' ', '0', ' ', '0', ' ', 't'], ['\t', 'n', 'o', 'o', 'p'], [],
      ['t', '\t', 'h', 'a', 'l', 't']] = .ok [8388609, 14680064, 12582912] ∧
    assembleWith 80 [['l', '\t', 'n', 'o', 'o', 'p'], ['\t', 'b', 'e', 'q', ' ', '0', ' ', '0', ' ', 'l']] =
      .ok [14680064, 8421374] := by decide

/-- V12, V13. -/
theorem test_assemble_data :
    assembleWith 80 [['\t', 'l', 'w', ' ', '0', ' ', '1', ' ', 'd'], ['d', '\t', '.', 'f', 'i', 'l', 'l', ' ', '-', '1']] =
      .ok [4227073, 4294967295] ∧
    assembleWith 80 [['\t', '.', 'f', 'i', 'l', 'l', ' ', '2', '1', '4', '7', '4', '8', '3', '6', '4', '8']] =
      .error (.rangeError 2147483648) := by decide

/-- E1, E3, E5, E6, E8, E10, and an over-long line. -/
theorem test_assemble_errors :
    assembleWith 80 [['\t', 'a', 'd', 'd', ' ', '1', ' ', '2', ' ', '8']] = .error (.malformedOperand ['8']) ∧
    assembleWith 80 [['\t', 'a', 'd', 'd', ' ', '1', ' ', '2']] = .error (.wrongOperandCount 0) ∧
    assembleWith 80 [['\t', 'm', 'u', 'l', ' ', '1', ' ', '2', ' ', '3']] = .error (.illegalOpcode ['m', 'u', 'l'] 0) ∧
    assembleWith 80 [['t', 'o', 'o', 'l', 'o', 'n', 'g', '\t', 'h', 'a', 'l', 't']] =
      .error (.badLabel ['t', 'o', 'o', 'l', 'o', 'n', 'g']) ∧
    assembleWith 80 [['a', '\t', 'n', 'o', 'o', 'p'], ['a', '\t', 'n', 'o', 'o', 'p']] = .error (.badLabel ['a']) ∧
    assembleWith 80 [['\t', '.', 'f', 'i', 'l', 'l', ' ', 'n', 'o']] = .error (.undefinedSymbol ['n', 'o']) ∧
    assembleWith 80 [['l', 'b', 'l']] = .error (.illegalOpcode [] 0) ∧
    assembleWith 4 [['\t', 'h', 'a', 'l', 't']] = .error .lineTooLong := by decide

/-- R82: a negative word's line. -/
theorem test_machine_code_lines :
    renderWord 4294967295 = ['-', '1'] ∧ renderWord 12582912 = ['1', '2', '5', '8', '2', '9', '1', '2'] ∧
    renderWord 0 = ['0'] ∧ parseWordLine ['-', '2', '1', '4', '7', '4', '8', '3', '6', '4', '8'] = some 2147483648 := by decide

/-! ### Witnesses: the hypotheses of each obligation are met, at boundary values of each clause -/

/-- SignExtensionIsABijection: the fields on both sides of the sign bit and the ends of the range. -/
theorem witness_SignExtensionIsABijection :
    (0 < 32768 ∧ sext15 0 = 0) ∧ (16383 < 32768 ∧ sext15 16383 = 16383) ∧ (16384 < 32768 ∧ sext15 16384 = -16384) ∧
    (32767 < 32768 ∧ sext15 32767 = -1) := by decide

/-- DecodeUndoesEncode and BoundaryOffsetCollides: a well-formed instruction at each end, an offset of 16384, an R3 form. -/
theorem witness_DecodeUndoesEncode :
    (Instr.beq 1 2 (-16384)).wellFormed = true ∧ (Instr.je 16383).wellFormed = true ∧
    (Instr.jmne 7 0 16384).offset? = some 16384 ∧ (decodeFields (encode (.xadd 1 2 5))).off = 5 := by decide

/-- BoundaryOffsetCollides. -/
theorem witness_BoundaryOffsetCollides :
    (Instr.lw 1 2 16384).offset? = some 16384 ∧ encodeCheckedWith 16383 (.lw 1 2 16384) = .error (.rangeError 16384) := by decide

/-- EncoderChecksTheOffsetRange: both ends inside and the values one past each end. -/
theorem witness_EncoderChecksTheOffsetRange :
    (Instr.je (-16384)).offset? = some (-16384) ∧ (Instr.je 16384).offset? = some 16384 ∧
    encodeChecked (.je (-16385)) = .error (.rangeError (-16385)) ∧ encodeChecked (.je 16385) = .error (.rangeError 16385) := by
  decide

/-- EncodeUndoesDecodeOnUsedBits: D-15, an ADD with every don't-care bit set. -/
theorem witness_EncodeUndoesDecodeOnUsedBits :
    decode 0x00057FFB = .ok (.add 1 2 3) ∧ encode (.add 1 2 3) = 0x00057FFB &&& usedBits .r3 := by decide

/-- A RUNNING machine about to execute `w` at address 3. -/
def about (w : Word) (regs : List (Reg × Word)) (stack : List Word) : State := machine 3 regs stack [(3, w)]

/-- IllegalWordsAreExactlyOpcodesAbove20: the least illegal word, a negative one, the greatest ADD word. -/
theorem witness_IllegalWordsAreExactlyOpcodesAbove20 :
    Fetches (about 44040192 [] []) 44040192 ∧ 20 < (44040192 : Word).toNat / 2097152 ∧ sval 0x80000000 < 0 ∧
    (2097151 : Word).toNat ≤ 2097151 := ⟨⟨rfl, by decide, by decide, by decide⟩, by decide, by decide, by decide⟩

/-- StepRunsTheDecodedInstruction. -/
theorem witness_StepRunsTheDecodedInstruction :
    Fetches (about 327683 [(1, 4), (2, 5)] []) 327683 ∧ decode 327683 = .ok (.add 1 2 3) ∧
    (Instr.add 1 2 3).wellFormed = true := ⟨⟨rfl, by decide, by decide, by decide⟩, by decide, by decide⟩

/-- PlacedWordIsRunNext. -/
theorem witness_PlacedWordIsRunNext :
    State.reset.mem.wf = true ∧ decodeTableWord 32 12582912 = some .halt := by decide

/-- BadPcFaultsBeforeTheFetch: just outside each end. -/
theorem witness_BadPcFaultsBeforeTheFetch :
    ((machine 4096 [] [] []).status = .running ∧ 4096 ≤ sval (machine 4096 [] [] []).pc) ∧
    ((machine (wrap (-1)) [] [] []).status = .running ∧ sval (machine (wrap (-1)) [] [] []).pc < 0) := by decide

/-- NothingHappensOutsideRunning: each of the three statuses. -/
theorem witness_NothingHappensOutsideRunning :
    State.reset.status ≠ .running ∧ (State.reset.setStatus .halted).status ≠ .running ∧
    (State.reset.takeFault .badPc).status ≠ .running := by decide

/-- FaultingStepKeepsNothing. -/
theorem witness_FaultingStepKeepsNothing :
    (about 44040192 [] []).status = .running ∧
    step (about 44040192 [] []) = .next ((about 44040192 [] []).takeFault .illegalOpcode) ∧
    ((about 44040192 [] []).takeFault .illegalOpcode).status = .faulted := ⟨rfl, rfl, rfl⟩

/-- CompletedStepForcesR0AndCounts: HALT and an instruction that is not HALT. -/
theorem witness_CompletedStepForcesR0AndCounts :
    ((about 12582912 [] []).fetchInstr = .ok .halt ∧
      stepped (about 12582912 [] []) (fun t => decide (t.status ≠ .faulted)) = some true) ∧
    ((about 327683 [] []).fetchInstr = .ok (.add 1 2 3) ∧
      stepped (about 327683 [] []) (fun t => decide (t.status ≠ .faulted)) = some true) := by
  refine ⟨⟨rfl, by decide⟩, ⟨rfl, by decide⟩⟩

/-- FaultCausesAreTheTable: a state with the invariant for each of the seven causes. -/
theorem witness_FaultCausesAreTheTable :
    (about 42205184 [] []).Inv ∧
    stepped (machine 4096 [] [] []) (fun t => t.cause) = some .badPc ∧
    stepped (about 44040192 [] []) (fun t => t.cause) = some .illegalOpcode ∧
    stepped (about 4227077 [(1, 1)] []) (fun t => t.cause) = some .none ∧
    stepped (about 4554751 [] []) (fun t => t.cause) = some .memOutOfRange ∧
    stepped (about 42205184 [] (List.replicate 32 1)) (fun t => t.cause) = some .stackOverflow ∧
    stepped (about 16777216 [] [0]) (fun t => t.cause) = some .stackUnderflow ∧
    stepped (about 16777216 [] [0, 10]) (fun t => t.cause) = some .divByZero ∧
    stepped (about 16777216 [] [wrap (-1), wrap (-2147483648)]) (fun t => t.cause) = some .divOverflow :=
  ⟨⟨by decide, by decide, by decide, by decide, by decide⟩, by decide, by decide, by decide, by decide, by decide, by decide,
    by decide, by decide⟩

/-- LwLoadsOrFaults: the effective addresses 0, 4095, -1 and 4096. -/
theorem witness_LwLoadsOrFaults :
    (machine 0 [] [] []).advance.effectiveAddress 0 0 = 0 ∧ (machine 0 [(1, 4095)] [] []).advance.effectiveAddress 1 0 = 4095 ∧
    (machine 0 [] [] []).advance.effectiveAddress 0 (-1) = -1 ∧
    (machine 0 [(1, 4097)] [] []).advance.effectiveAddress 1 (-1) = 4096 := by decide

/-- SwStoresOrFaults: the same addresses on a canonical memory. -/
theorem witness_SwStoresOrFaults :
    (machine 0 [(1, 4095)] [] [(7, 1)]).mem.wf = true ∧
    (machine 0 [(1, 4095)] [] [(7, 1)]).advance.effectiveAddress 1 0 = 4095 ∧
    (machine 0 [(1, 4095)] [] [(7, 1)]).advance.effectiveAddress 1 1 = 4096 ∧
    (machine 0 [(1, 4095)] [] [(7, 1)]).advance.effectiveAddress 0 0 = 0 ∧
    (machine 0 [(1, 4095)] [] [(7, 1)]).advance.effectiveAddress 0 (-1) = -1 := by decide

/-- StoreIsSeenByTheNextFetch: `sw 0 1 4` at address 3. -/
theorem witness_StoreIsSeenByTheNextFetch :
    (about 6324228 [(1, 12582912)] []).mem.wf = true ∧ Fetches (about 6324228 [(1, 12582912)] []) 6324228 ∧
    decode 6324228 = .ok (.sw 0 1 4) ∧
    sval ((about 6324228 [(1, 12582912)] []).getReg 0) + 4 = sval (about 6324228 [(1, 12582912)] []).pc + 1 ∧
    sval (about 6324228 [(1, 12582912)] []).pc < 4095 :=
  ⟨by decide, ⟨rfl, by decide, by decide, by decide⟩, by decide, by decide, by decide⟩

/-- TakenBranchLandsExactly: both ends of pc and both ends of the offset, where BEQ of two different registers lands; and
each clause's condition. -/
theorem witness_TakenBranchLandsExactly :
    (after (.beq 1 2 (-16384)) (machine 0 [(1, 6), (2, 6)] [] []) (fun t => sval t.pc) = some (-16383) ∧
      after (.beq 1 2 16383) (machine 4095 [(1, 6), (2, 6)] [] []) (fun t => sval t.pc) = some 20479) ∧
    (0 ≤ sval (machine 4095 [(1, 1)] [3, 4] []).pc ∧ sval (machine 4095 [(1, 1)] [3, 4] []).pc < 4096) ∧
    (machine 0 [(1, 6), (2, 6)] [] []).getReg 1 = (machine 0 [(1, 6), (2, 6)] [] []).getReg 2 ∧
    (machine 0 [(1, 1)] [3, 4] []).getReg 1 ≠ (machine 0 [(1, 1)] [3, 4] []).getReg 2 ∧
    ((machine 0 [(1, 1)] [3, 4] []).getReg 2).toNat < ((machine 0 [(1, 1)] [3, 4] []).getReg 1).toNat ∧
    ((machine 0 [] [] []).setZ true).z = true ∧ (machine 0 [(1, 1)] [3, 4] []).sp ≤ 30 ∧ (machine 0 [] [] []).z = false ∧
    (machine 0 [(1, 1)] [3, 4] []).getStk 30 ≠ (machine 0 [(1, 1)] [3, 4] []).getStk 31 ∧
    (machine 0 [] [4, 4] []).getStk 30 = (machine 0 [] [4, 4] []).getStk 31 := by decide

/-- JmnePopsTwoAndBranches and IdivDividesOrFaults: two entries (sp = 30) and one (sp = 31). -/
theorem witness_twoEntriesOrOne : (machine 0 [] [3, 4] []).sp = 30 ∧ (machine 0 [] [3] []).sp = 31 := by decide

/-- IdivDividesOrFaults: a zero divisor, the overflowing pair, and a pair that divides. -/
theorem witness_IdivDividesOrFaults :
    sval ((machine 0 [] [0, 10] []).getStk 30) = 0 ∧ sval ((machine 0 [] [wrap (-1), wrap (-2147483648)] []).getStk 30) = -1 ∧
    sval ((machine 0 [] [wrap (-1), wrap (-2147483648)] []).getStk 31) = -2147483648 ∧
    sval ((machine 0 [] [1, wrap (-2147483648)] []).getStk 30) = 1 := by decide

/-- PushStoresOrOverflows, PopLoadsOrUnderflows, NegNegatesTheTop, PopAfterPushGivesThePushedWord: empty, one entry, full. -/
theorem witness_stackBoundaries :
    (machine 0 [] [] []).sp = 32 ∧ (machine 0 [] [5] []).sp = 31 ∧ (machine 0 [] (List.replicate 31 1) []).sp = 1 ∧
    (machine 0 [] (List.replicate 32 1) []).sp = 0 := by decide

/-- RegistersOutsideTheTableAreKept and OnlyTheNamedInstructionsWrite: an instruction that answers a next state. -/
theorem witness_exec_answers : exec .noop State.reset = .next State.reset.advance.complete := rfl

/-- RegistersOutsideTheTableAreNotRead: ADD completes, its destination is written and not read, and the two states do
differ; a register that NOOP neither reads nor writes still differs after it. -/
theorem witness_RegistersOutsideTheTableAreNotRead :
    (3 : Reg) ∉ readRegs (.add 1 2 3) ∧ (3 : Reg) ∈ writtenRegs (.add 1 2 3) ∧
    SameButReg 3 (machine 0 [] [] []) (machine 0 [(3, 9)] [] []) ∧
    (machine 0 [] [] []).getReg 3 ≠ (machine 0 [(3, 9)] [] []).getReg 3 ∧
    exec (.add 1 2 3) (machine 0 [] [] []) = .next (addBody 1 2 3 (machine 0 [] [] []).advance).complete ∧
    Completed (machine 0 [] [] []) (addBody 1 2 3 (machine 0 [] [] []).advance).complete ∧
    after .noop (machine 0 [(3, 9)] [] []) (fun t => t.getReg 3) = some 9 :=
  ⟨by decide, by decide, ⟨rfl, by decide⟩, by decide, rfl, ⟨by decide, rfl, rfl, rfl⟩, by decide⟩

/-- OnlyTheNamedInstructionsWrite: each of its changes happens. -/
theorem witness_OnlyTheNamedInstructionsWrite :
    after (.cmp 1 2) (machine 0 [] [] []) (fun t => t.z) = some true ∧
    after (.sw 0 1 9) (machine 0 [(1, 7)] [] []) (fun t => t.mem.read 9) = some 7 ∧
    after (.push 1) (machine 0 [] [] []) (fun t => t.sp) = some 31 ∧
    after (.beq 0 0 3) (machine 0 [] [] []) (fun t => t.pc) = some 4 ∧
    after .halt (machine 0 [] [] []) (fun t => t.status) = some .halted := by decide

/-- DeadStackEntriesAreUnobservable: two states that differ in a popped entry. -/
theorem witness_DeadStackEntriesAreUnobservable :
    SameButDeadEntries (machine 0 [] [5] []) ((machine 0 [] [5] []).setStk 30 9) ∧
    machine 0 [] [5] [] ≠ (machine 0 [] [5] []).setStk 30 9 := by
  refine ⟨⟨rfl, fun j hj => ?_⟩, fun e => ?_⟩
  · have h31 : (31 : Nat) ≤ j := hj
    have hne : ¬ (30 : Nat) = j := by omega
    simp [State.getStk, State.setStk, hne]
  · exact absurd (congrArg (fun s => s.getStk 30) e) (by decide)

/-- StepKeepsTheInvariant and HostOperationsKeepTheInvariant: a RUNNING state that meets the invariant and steps. -/
theorem witness_StepKeepsTheInvariant :
    (about 327683 [(1, 4)] [2]).Inv ∧ step (about 327683 [(1, 4)] [2]) = exec (.add 1 2 3) (about 327683 [(1, 4)] [2]) :=
  ⟨⟨by decide, by decide, by decide, by decide, by decide⟩, rfl⟩

/-- CountIsTheNumberOfCompletedSteps: a run of one step that goes on, one that a fault ends, and one that HALT ends. -/
theorem witness_CountIsTheNumberOfCompletedSteps :
    (Host.Core.run core 1 (about 14680064 [] []) = .next (about 14680064 [] []).advance.complete ∧
      (about 14680064 [] []).advance.complete.status = .running) ∧
    (Host.Core.run core 1 (about 44040192 [] []) = .next ((about 44040192 [] []).takeFault .illegalOpcode) ∧
      ((about 44040192 [] []).takeFault .illegalOpcode).Ended) ∧
    (Host.Core.run core 1 (about 12582912 [] []) = .next ((about 12582912 [] []).advance.setStatus .halted).complete ∧
      ((about 12582912 [] []).advance.setStatus .halted).complete.Ended ∧
      ((about 12582912 [] []).advance.setStatus .halted).complete.count = 1) :=
  ⟨⟨rfl, rfl⟩, ⟨rfl, .inr rfl⟩, ⟨rfl, .inl rfl, rfl⟩⟩

/-- LoadPlacesTheWords: the longest load that fits and the shortest that does not. -/
theorem witness_LoadPlacesTheWords :
    State.reset.status = .idle ∧ State.reset.mem.wf = true ∧ (List.replicate 4096 (1 : Word)).length ≤ 4096 ∧
    4096 < (List.replicate 4097 (1 : Word)).length := by
  simp only [List.length_replicate]; decide

/-- HostWritesOnlyInIdle: both statuses. -/
theorem witness_HostWritesOnlyInIdle :
    (machine 0 [] [] []).status ≠ .idle ∧ HostOp.start ≠ .reset ∧ State.reset.status = .idle ∧ (7 : Reg) ≠ 0 := by decide

/-- BootGivesARunningBlock. -/
theorem witness_BootGivesARunningBlock :
    ([327683, 12582912] : List Word).length ≤ 4096 ∧ (1 : Reg) ≠ 0 ∧
    (hostOps [.reset, .load [327683, 12582912], .preload 1 4, .start] State.reset).status = .running := by decide

/-- TraceShowsTheLiveStack. -/
theorem witness_TraceShowsTheLiveStack :
    (machine 0 [] [3, 4] []).sp ≤ 32 ∧ ((machine 0 [] [3, 4] []).trace 0).stack = [3, 4] := by decide

/-- AssembledBranchReachesItsLabel: each of the four branches assembled at address 3 for a label at 9, fetched there, and
its condition met. -/
theorem witness_AssembledBranchReachesItsLabel :
    (List.lookup ['t'] [(['t'], 9)] = some 9 ∧ parseInt ['t'] = none ∧ sval (about 8388613 [] []).pc = (3 : Nat)) ∧
    (Fetches (about 8388613 [] []) 8388613 ∧
      emitLine [(['t'], 9)] 3 ⟨none, ['b', 'e', 'q'], [['0'], ['0'], ['t']]⟩ = .ok 8388613) ∧
    (Fetches (about 29622277 [(1, 1)] []) 29622277 ∧
      emitLine [(['t'], 9)] 3 ⟨none, ['j', 'm', 'a'], [['1'], ['0'], ['t']]⟩ = .ok 29622277 ∧
      ((about 29622277 [(1, 1)] []).getReg 0).toNat < ((about 29622277 [(1, 1)] []).getReg 1).toNat) ∧
    (Fetches (about 31457285 [] [3, 4]) 31457285 ∧
      emitLine [(['t'], 9)] 3 ⟨none, ['j', 'm', 'n', 'e'], [['0'], ['0'], ['t']]⟩ = .ok 31457285 ∧
      (about 31457285 [] [3, 4]).sp ≤ 30 ∧ (about 31457285 [] [3, 4]).getStk 30 ≠ (about 31457285 [] [3, 4]).getStk 31) ∧
    (Fetches ((about 35651589 [] []).setZ true) 35651589 ∧
      emitLine [(['t'], 9)] 3 ⟨none, ['j', 'e'], [['t']]⟩ = .ok 35651589 ∧ ((about 35651589 [] []).setZ true).z = true) :=
  ⟨by decide, ⟨⟨rfl, by decide, by decide, by decide⟩, by decide⟩, ⟨⟨rfl, by decide, by decide, by decide⟩, by decide⟩,
    ⟨⟨rfl, by decide, by decide, by decide⟩, by decide⟩, ⟨⟨rfl, by decide, by decide, by decide⟩, by decide⟩⟩

/-- AssembledBranchReachesItsLabel: targets past the memory, up to the last one that is reached and the colliding one. -/
theorem witness_AssembledBranchReachesItsLabel_bounds :
    (emitLine [(['t'], 16387)] 3 ⟨none, ['j', 'e'], [['t']]⟩ = .ok 35667967 ∧ landing 3 16387 = 16387 ∧
      stepped ((about 35667967 [] []).setZ true) (fun t => sval t.pc) = some 16387) ∧
    (emitLine [(['t'], 16388)] 3 ⟨none, ['j', 'e'], [['t']]⟩ = .ok 35667968 ∧ landing 3 16388 = -16380 ∧
      stepped ((about 35667968 [] []).setZ true) (fun t => sval t.pc) = some (-16380)) ∧
    Fetches ((about 35667968 [] []).setZ true) 35667968 :=
  ⟨by decide, by decide, ⟨rfl, by decide, by decide, by decide⟩⟩

/-- LoadStoreSymbolsAreAbsolute and FillIsVerbatim: a literal and a symbol. -/
theorem witness_LoadStoreSymbolsAreAbsolute :
    registerOperand ['1'] = .ok 1 ∧ registerOperand ['0', '7'] = .ok 7 ∧ parseInt ['-', '5'] = some (-5) ∧
    parseInt ['d'] = none ∧ List.lookup ['d'] [(['d'], 8)] = some 8 := by decide

/-- FillIsVerbatim: the ends of the word range and the values past them. -/
theorem witness_FillIsVerbatim :
    emitLine [] 0 ⟨none, ['.', 'f', 'i', 'l', 'l'], [['-', '2', '1', '4', '7', '4', '8', '3', '6', '4', '8']]⟩ =
      .ok 2147483648 ∧
    parseInt ['2', '1', '4', '7', '4', '8', '3', '6', '4', '8'] = some 2147483648 ∧
    parseInt ['-', '2', '1', '4', '7', '4', '8', '3', '6', '4', '9'] = some (-2147483649) := by decide

/-- RegisterOperandsAreDigitsUpToSeven: an accepted operand, and texts that are refused (R78). -/
theorem witness_RegisterOperandsAreDigitsUpToSeven :
    registerOperand ['7'] = .ok 7 ∧ registerOperand ['8'] = .error (.malformedOperand ['8']) ∧
    registerOperand ['+', '1'] = .error (.malformedOperand ['+', '1']) ∧ registerOperand [] = .error (.malformedOperand []) := by
  decide

/-- UnknownNamesAreReported. -/
theorem witness_UnknownNamesAreReported :
    ['m', 'u', 'l'] ∉ mnemonicTable.map Prod.fst ∧ parseInt ['n', 'o'] = none ∧
    List.lookup ['n', 'o'] ([] : Symbols) = none ∧ registerOperand ['0'] = .ok 0 := by decide

/-- LabelsAreUniqueAndAddressTheirLines: the longest label, one of a single letter, and what is no label. -/
theorem witness_LabelsAreUniqueAndAddressTheirLines :
    collectLabels 0 [] [⟨some ['a', '2', 'b', '4', 'c', '6'], ['h', 'a', 'l', 't'], []⟩, ⟨some ['Z'], [], []⟩] =
      .ok [(['a', '2', 'b', '4', 'c', '6'], 0), (['Z'], 1)] ∧
    labelOk ['a', '2', 'b', '4', 'c', '6', '7'] = false ∧ labelOk ['2', 'a'] = false ∧ labelOk ['a', '_'] = false ∧
    labelOk [] = false := by decide

/-- LabelsAreUniqueAndAddressTheirLines and OneWordPerNonBlankLine: a program that assembles. -/
theorem witness_OneWordPerNonBlankLine :
    collectLabels 0 [] [⟨none, ['n', 'o', 'o', 'p'], []⟩, ⟨some ['l'], ['h', 'a', 'l', 't'], []⟩] = .ok [(['l'], 1)] ∧
    assembleWith 80 [['\t', 'n', 'o', 'o', 'p'], ['l', ' ', 'h', 'a', 'l', 't']] = .ok [14680064, 12582912] := by decide

end Sys2Proof.Tests
end

section
/-! PROOFS. Each instruction as a fault test and a total effect on the working copy, so that what an instruction reads,
writes and keeps is read off two tables without following the bodies' error paths again. -/

namespace Sys2Proof.Machine

/-- The fault an instruction raises on a working copy (R122, in the order of R123), if any. -/
def bodyFault : Instr → State → Option FaultCause
  | .lw a0 _ off, t | .sw a0 _ off, t => if inMemory (t.effectiveAddress a0 off) then none else some .memOutOfRange
  | .idiv, t =>
    if 31 ≤ t.sp then some .stackUnderflow
    else if t.getStk t.sp = 0 then some .divByZero
    else if sval (t.getStk (t.sp + 1)) = -2147483648 ∧ sval (t.getStk t.sp) = -1 then some .divOverflow
    else none
  | .neg, t | .pop _, t => if 32 ≤ t.sp then some .stackUnderflow else none
  | .jmne _ _ _, t => if 31 ≤ t.sp then some .stackUnderflow else none
  | .push _, t => if t.sp = 0 then some .stackOverflow else none
  | _, _ => none

/-- What an instruction that raises no fault makes of the working copy. -/
def effectOf : Instr → State → State
  | .add a0 a1 a2, t => t.setReg a2 (addW (t.getReg a0) (t.getReg a1))
  | .nand a0 a1 a2, t => t.setReg a2 (nandW (t.getReg a0) (t.getReg a1))
  | .lw a0 a1 off, t => t.setReg a1 (t.mem.read (t.effectiveAddress a0 off).toNat)
  | .sw a0 a1 off, t => { t with mem := t.mem.write (t.effectiveAddress a0 off).toNat (t.getReg a1) }
  | .beq a0 a1 off, t => t.branchIf (decide (t.getReg a0 = t.getReg a1)) off
  | .jalr a0 a1, t => (t.setReg a1 t.pc).setPc (if a0 = 0 then 0 else (t.setReg a1 t.pc).getReg a0)
  | .halt, t => t.setStatus .halted
  | .noop, t => t
  | .idiv, t => (t.setSp (t.sp + 1)).setStk (t.sp + 1) (tdivW (t.getStk (t.sp + 1)) (t.getStk t.sp))
  | .dec a0, t => t.setReg a0 (subW (t.getReg a0) 1)
  | .xadd a0 a1 a2, t => xaddBody a0 a1 a2 t
  | .shl a0 a1 a2, t => t.setReg a2 (shlW (t.getReg a0) (t.getReg a1))
  | .or a0 a1 a2, t => t.setReg a2 (orW (t.getReg a0) (t.getReg a1))
  | .neg, t => (t.setStk t.sp (negW (t.getStk t.sp))).setZ (negZ (negW (t.getStk t.sp)))
  | .jma a0 a1 off, t => t.branchIf (decide (uval (t.getReg a0) > uval (t.getReg a1))) off
  | .jmne _ _ off, t => (t.setSp (t.sp + 2)).branchIf (decide (t.getStk t.sp ≠ t.getStk (t.sp + 1))) off
  | .cmp a0 a1, t => t.setZ (cmpZ (t.getReg a0) (t.getReg a1))
  | .je off, t => t.branchIf t.z off
  | .bsr a0 a1, t => (t.setReg a1 (bsrResult (t.getReg a0))).setZ (bsrZ (t.getReg a0))
  | .pop a0, t => (t.setSp (t.sp + 1)).setReg a0 (t.getStk t.sp)
  | .push a0, t => (t.setSp (t.sp - 1)).setStk (t.sp - 1) (t.getReg a0)

/-! ### The two tables are the bodies -/

/-- Two pops in a row, as JMNE and IDIV make them, need two live entries. -/
theorem popWord_popWord {t : State} (h : t.sp < 31) :
    t.popWord = .ok (t.getStk t.sp, t.setSp (t.sp + 1)) ∧
    (t.setSp (t.sp + 1)).popWord = .ok (t.getStk (t.sp + 1), t.setSp (t.sp + 2)) := by
  obtain ⟨h0, -⟩ | ⟨-, hpop⟩ := t.popWord_cases
  · omega
  obtain ⟨h1, -⟩ | ⟨-, hpop'⟩ := (t.setSp (t.sp + 1)).popWord_cases
  · rw [State.setSp_sp] at h1
    omega
  exact ⟨hpop, hpop'⟩

theorem depth_lt_two_iff (t : State) : t.depth < 2 ↔ 31 ≤ t.sp := by
  simp only [State.depth, Config.stackWords]; omega

theorem depth_eq_zero_iff (t : State) : t.depth = 0 ↔ 32 ≤ t.sp := by
  simp only [State.depth, Config.stackWords]; omega

theorem idivBody_eq (t : State) : idivBody t = (bodyFault .idiv t).elim (.ok (effectOf .idiv t)) .error := by
  simp only [idivBody, bodyFault, depth_lt_two_iff]
  split
  · rfl
  · next h =>
    obtain ⟨hpop, hpop'⟩ := popWord_popWord (Nat.lt_of_not_le h)
    obtain ⟨h0, hd⟩ | ⟨h0, h1, hd⟩ | ⟨h0, h1, hd⟩ := divide_cases (t.getStk (t.sp + 1)) (t.getStk t.sp)
    · simp only [hpop, hpop', hd, if_pos h0, Option.elim_some]
    · simp only [hpop, hpop', hd, if_neg h0, if_pos h1, Option.elim_some]
    · simp only [hpop, hpop', hd, if_neg h0, if_neg h1, Option.elim_none]
      rfl

theorem jmneBody_eq (a0 a1 : Reg) (off : Int) (t : State) :
    jmneBody off t = (bodyFault (.jmne a0 a1 off) t).elim (.ok (effectOf (.jmne a0 a1 off) t)) .error := by
  simp only [jmneBody, bodyFault, depth_lt_two_iff]
  split
  · rfl
  · next h =>
    obtain ⟨hpop, hpop'⟩ := popWord_popWord (Nat.lt_of_not_le h)
    simp only [hpop, hpop', Option.elim_none, effectOf]

theorem negBody_eq (t : State) : negBody t = (bodyFault .neg t).elim (.ok (effectOf .neg t)) .error := by
  simp only [negBody, bodyFault, depth_eq_zero_iff]
  split
  · rfl
  · next h =>
    have hsp : t.sp < 32 := Nat.lt_of_not_le h
    simp only [State.setStk_sp, State.getStk_setStk_self t t.sp _ hsp, Option.elim_none, effectOf]

theorem jalrBody_eq (a0 a1 : Reg) (t : State) : jalrBody a0 a1 t = effectOf (.jalr a0 a1) t := by
  by_cases h : a0 = 0 <;> simp [jalrBody, effectOf, h]

/-- A body raises the fault of the one table, or makes the effect of the other. -/
theorem bodyOf_eq (i : Instr) (t : State) : bodyOf i t = (bodyFault i t).elim (.ok (effectOf i t)) .error := by
  cases i with
  | idiv => exact idivBody_eq t
  | jmne a0 a1 off => exact jmneBody_eq a0 a1 off t
  | neg => exact negBody_eq t
  | jalr a0 a1 => exact congrArg Except.ok (jalrBody_eq a0 a1 t)
  | lw a0 a1 off =>
    by_cases h : inMemory (t.effectiveAddress a0 off) = true <;>
      simp [bodyOf, lwBody, State.memRead, bodyFault, effectOf, h]
  | sw a0 a1 off =>
    by_cases h : inMemory (t.effectiveAddress a0 off) = true <;>
      simp [bodyOf, swBody, State.memWrite, bodyFault, effectOf, h]
  | pop a0 =>
    obtain ⟨h, hpop⟩ | ⟨h, hpop⟩ := t.popWord_cases
    · simp [bodyOf, popBody, hpop, bodyFault, h]
    · simp [bodyOf, popBody, hpop, bodyFault, effectOf, Nat.not_le.2 h]
  | push a0 =>
    simp only [bodyOf, pushBody, State.pushWord, bodyFault]
    split <;> rfl
  | _ => rfl

/-- No fault test looks at pc. -/
theorem bodyFault_advance (i : Instr) (s : State) : bodyFault i s.advance = bodyFault i s := by
  cases i <;> rfl

/-- The cause a fault records is one of the seven of R122. -/
theorem bodyFault_ne_none {i : Instr} {s : State} {c : FaultCause} (h : bodyFault i s = some c) : c ≠ .none := by
  rintro rfl
  cases i with
  | idiv =>
    simp only [bodyFault] at h
    split_ifs at h <;> cases h
  | _ => simp [bodyFault] at h

theorem exec_of_no_fault {i : Instr} {s : State} (h : bodyFault i s = none) :
    exec i s = .next (effectOf i s.advance).complete := by
  rw [exec_eq_runBody]
  exact runBody_ok (by rw [bodyOf_eq, bodyFault_advance, h]; rfl)

theorem exec_of_fault {i : Instr} {s : State} {c : FaultCause} (h : bodyFault i s = some c) :
    exec i s = .next (s.takeFault c) := by
  rw [exec_eq_runBody]
  exact runBody_error (by rw [bodyOf_eq, bodyFault_advance, h]; rfl)

/-- All the next states an instruction can answer (R88 to R91). -/
theorem exec_next_cases {i : Instr} {s t : State} (h : exec i s = .next t) :
    (bodyFault i s = none ∧ t = (effectOf i s.advance).complete) ∨
    (∃ c, bodyFault i s = some c ∧ t = s.takeFault c) := by
  cases hf : bodyFault i s with
  | none =>
    rw [exec_of_no_fault hf] at h
    exact .inl ⟨rfl, (Host.Outcome.next.inj h).symm⟩
  | some c =>
    rw [exec_of_fault hf] at h
    exact .inr ⟨c, rfl, (Host.Outcome.next.inj h).symm⟩

/-- A fetch fails with BAD_PC or ILLEGAL_OPCODE only (R84, R86). -/
theorem State.fetchInstr_error_ne_none {s : State} {c : FaultCause} (h : s.fetchInstr = .error c) : c ≠ .none := by
  rintro rfl
  obtain ⟨-, hf⟩ | ⟨-, hf⟩ := s.fetch_cases
  · rw [State.fetchInstr_of_fetch hf] at h
    split at h <;> cases h
  · simp [State.fetchInstr, hf] at h

/-- All a step can answer: the same state outside RUNNING, a recorded fault, or the fetched instruction's effect. -/
theorem step_cases (s : State) :
    (s.status ≠ .running ∧ step s = .next s) ∨
    (s.status = .running ∧ ∃ c, c ≠ .none ∧ step s = .next (s.takeFault c)) ∨
    (s.status = .running ∧ ∃ i, s.fetchInstr = .ok i ∧ bodyFault i s = none ∧
      step s = .next (effectOf i s.advance).complete) := by
  by_cases hs : s.status = .running
  · obtain ⟨c, hf, hstep⟩ | ⟨i, hf, hstep⟩ := step_running_cases hs
    · exact .inr (.inl ⟨hs, c, State.fetchInstr_error_ne_none hf, hstep⟩)
    · cases hb : bodyFault i s with
      | none => exact .inr (.inr ⟨hs, i, hf, hb, hstep.trans (exec_of_no_fault hb)⟩)
      | some c => exact .inr (.inl ⟨hs, c, bodyFault_ne_none hb, hstep.trans (exec_of_fault hb)⟩)
  · exact .inl ⟨hs, step_of_not_running hs⟩

/-- Every step answers a next state (log 1). -/
theorem step_total (s : State) : ∃ t, step s = .next t := by
  obtain ⟨-, h⟩ | ⟨-, c, -, h⟩ | ⟨-, i, -, -, h⟩ := step_cases s
  · exact ⟨_, h⟩
  · exact ⟨_, h⟩
  · exact ⟨_, h⟩

end Sys2Proof.Machine
end

section
/-! PROOFS. R17's column "reads": a register outside it can be overwritten before an instruction or after it alike. Two
states that differ in one register are one state and a write of that register, so the two-state statement becomes the
law that an effect commutes with such a write. -/

namespace Sys2Proof.Machine

/-! ### Writes of one register -/

/-- The later of two writes of a register wins. -/
@[simp] theorem State.setReg_setReg_self (s : State) (r : Reg) (v w : Word) :
    (s.setReg r v).setReg r w = s.setReg r w := by
  simp [State.setReg]

/-- Writes of different registers commute. -/
theorem State.setReg_comm (s : State) {r q : Reg} (h : r ≠ q) (v w : Word) :
    (s.setReg r v).setReg q w = (s.setReg q w).setReg r v := by
  simp only [State.setReg, Vector.set_comm _ _ (Fin.val_ne_of_ne h)]

/-! A register write moves out of a write of any other part of the state. -/

@[simp] theorem State.setPc_setReg (t : State) (r : Reg) (v w : Word) :
    (t.setReg r v).setPc w = (t.setPc w).setReg r v := rfl
@[simp] theorem State.setZ_setReg (t : State) (r : Reg) (v : Word) (b : Bool) :
    (t.setReg r v).setZ b = (t.setZ b).setReg r v := rfl
@[simp] theorem State.setStatus_setReg (t : State) (r : Reg) (v : Word) (st : Status) :
    (t.setReg r v).setStatus st = (t.setStatus st).setReg r v := rfl
@[simp] theorem State.setStk_setReg (t : State) (r : Reg) (v w : Word) (j : Nat) :
    (t.setReg r v).setStk j w = (t.setStk j w).setReg r v := rfl
@[simp] theorem State.setSp_setReg (t : State) (r : Reg) (v : Word) (n : Nat) :
    (t.setReg r v).setSp n = (t.setSp n).setReg r v := rfl
@[simp] theorem State.advance_setReg (t : State) (r : Reg) (v : Word) :
    (t.setReg r v).advance = t.advance.setReg r v := rfl
@[simp] theorem State.branchIf_setReg (t : State) (c : Bool) (off : Int) (r : Reg) (v : Word) :
    (t.setReg r v).branchIf c off = (t.branchIf c off).setReg r v := by
  cases c <;> rfl

/-- Forcing r0 to 0 (R88) hides a write of r0. -/
theorem State.complete_setReg_zero (t : State) (v : Word) : (t.setReg 0 v).complete = t.complete := by
  simp [State.complete]

/-- Forcing r0 to 0 commutes with a write of another register. -/
theorem State.complete_setReg_ne (t : State) {r : Reg} (h : r ≠ 0) (v : Word) :
    (t.setReg r v).complete = t.complete.setReg r v := by
  rw [State.complete, State.setReg_comm t h]
  rfl

/-- Two states differ at most in a register exactly when a write of it makes the one the other. -/
theorem sameButReg_iff {r : Reg} {s s' : State} : SameButReg r s s' ↔ ∃ v, s' = s.setReg r v := by
  constructor
  · rintro ⟨hrest, hreg⟩
    have hcells : s'.reg = s.reg.set r.val (s'.getReg r) := by
      refine Vector.ext fun q hq => ?_
      by_cases h : r.val = q
      · subst h
        simp [State.getReg]
      · rw [Vector.getElem_set_ne _ _ h]
        exact hreg ⟨q, hq⟩ fun e => h (congrArg Fin.val e).symm
    exact ⟨s'.getReg r, hrest.trans (congrArg (fun g => { s with reg := g }) hcells)⟩
  · rintro ⟨v, rfl⟩
    exact ⟨rfl, fun q hq => State.getReg_setReg_ne s r q v hq⟩

theorem SameButReg.refl (r : Reg) (s : State) : SameButReg r s s := ⟨rfl, fun _ _ => rfl⟩

theorem SameButReg.setReg (r : Reg) (s : State) (v : Word) : SameButReg r s (s.setReg r v) :=
  sameButReg_iff.2 ⟨v, rfl⟩

/-! ### Faults and effects under a write of a register that is not read -/

theorem getReg_setReg_of_not_mem {rs : List Reg} {r : Reg} (hr : r ∉ rs) (v : Word) :
    ∀ q ∈ rs, ∀ t : State, (t.setReg r v).getReg q = t.getReg q :=
  fun q hq t => State.getReg_setReg_ne t r q v (ne_of_mem_of_not_mem hq hr)

theorem setReg_comm_of_not_mem {rs : List Reg} {r : Reg} (hr : r ∉ rs) (v : Word) :
    ∀ q ∈ rs, ∀ (t : State) (w : Word), (t.setReg r v).setReg q w = (t.setReg q w).setReg r v :=
  fun _ hq t w => t.setReg_comm (ne_of_mem_of_not_mem hq hr).symm v w

/-- An effective address (R40) depends on its base register only. -/
theorem State.effectiveAddress_congr {s t : State} {a : Reg} (h : s.getReg a = t.getReg a) (off : Int) :
    s.effectiveAddress a off = t.effectiveAddress a off := by
  rw [State.effectiveAddress, h, State.effectiveAddress]

/-- No fault test reads a register outside R17's column "reads". -/
theorem bodyFault_setReg {i : Instr} {r : Reg} (hr : r ∉ readRegs i) (s : State) (v : Word) :
    bodyFault i (s.setReg r v) = bodyFault i s := by
  have hread := getReg_setReg_of_not_mem hr v
  cases i with
  | lw a0 a1 off | sw a0 a1 off =>
    have hbase := hread a0 (by simp [readRegs]) s
    simp only [bodyFault]
    rw [State.effectiveAddress_congr hbase]
  | _ => rfl

/-- A register that an instruction writes and does not read might as well have held anything before. -/
theorem effectOf_setReg_of_written {i : Instr} {r : Reg} (hr : r ∉ readRegs i) (hw : r ∈ writtenRegs i) (t : State)
    (v : Word) : effectOf i (t.setReg r v) = effectOf i t := by
  have hread := getReg_setReg_of_not_mem hr v
  cases i with
  | sw | beq | halt | noop | idiv | neg | jma | jmne | cmp | je | push => cases hw
  | xadd a0 a1 a2 =>
    have : r ∈ readRegs (.xadd a0 a1 a2) := by
      simp only [readRegs, writtenRegs, List.mem_cons] at hw ⊢
      tauto
    exact absurd this hr
  | _ =>
    obtain rfl := List.mem_singleton.1 hw
    simp only [readRegs, List.forall_mem_cons] at hread
    simp [effectOf, State.effectiveAddress, hread]

/-- A register that an instruction neither reads nor writes passes through it. -/
theorem effectOf_setReg {i : Instr} {r : Reg} (hr : r ∉ readRegs i) (hw : r ∉ writtenRegs i) (t : State)
    (v : Word) : effectOf i (t.setReg r v) = (effectOf i t).setReg r v := by
  have hread := getReg_setReg_of_not_mem hr v
  have hcomm := setReg_comm_of_not_mem hw v
  cases i with
  | jalr a0 a1 =>
    simp only [readRegs] at hread
    simp only [writtenRegs, List.forall_mem_cons] at hcomm
    by_cases h0 : a0 = 0 <;> simp_all [effectOf]
  | sw a0 a1 off =>
    have hbase := hread a0 (by simp [readRegs]) t
    have hsource := hread a1 (by simp [readRegs]) t
    simp only [effectOf, State.effectiveAddress_congr hbase, hsource]
    rfl
  | jmne a0 a1 off => exact (t.setSp (t.sp + 2)).branchIf_setReg _ off r v
  | _ =>
    simp only [readRegs, writtenRegs, List.forall_mem_cons] at hread hcomm
    simp [effectOf, xaddBody, State.effectiveAddress, hread, hcomm]

/-- Settles O36: the two states are one state and a write of the register, which the effect hides or passes through. -/
theorem registersOutsideTheTableAreNotRead : Obligations.RegistersOutsideTheTableAreNotRead := by
  intro i r s s' hr hs
  obtain ⟨v, rfl⟩ := sameButReg_iff.1 hs
  cases hf : bodyFault i s with
  | some c =>
    have hf' : bodyFault i (s.setReg r v) = some c := (bodyFault_setReg hr s v).trans hf
    refine ⟨_, _, exec_of_fault hf, exec_of_fault hf', .setReg r (s.takeFault c) v, fun hc => ?_⟩
    have := hc.count_eq
    simp at this
  | none =>
    have hf' : bodyFault i (s.setReg r v) = none := (bodyFault_setReg hr s v).trans hf
    refine ⟨_, _, exec_of_no_fault hf, exec_of_no_fault hf', ?_⟩
    rw [State.advance_setReg]
    by_cases hw : r ∈ writtenRegs i
    · rw [effectOf_setReg_of_written hr hw]
      exact ⟨.refl r _, fun _ _ => rfl⟩
    rw [effectOf_setReg hr hw]
    by_cases h0 : r = 0
    · subst h0
      rw [State.complete_setReg_zero]
      exact ⟨.refl 0 _, fun _ _ => rfl⟩
    · rw [State.complete_setReg_ne _ h0]
      exact ⟨.setReg r _ v, fun _ h => absurd h (not_or.2 ⟨h0, hw⟩)⟩

end Sys2Proof.Machine
end

section
/-! PROOFS. What each effect leaves alone (R17, R21, R42, R87, R89), and the invariant of reachable states. -/

namespace Sys2Proof.Machine

/-! ### The frame of an effect -/

/-- No effect touches the fault record or the count; `complete` and `takeFault` write them. -/
@[simp] theorem effectOf_cause (i : Instr) (t : State) : (effectOf i t).cause = t.cause := by
  cases i <;> simp [effectOf, xaddBody]

@[simp] theorem effectOf_faddr (i : Instr) (t : State) : (effectOf i t).faddr = t.faddr := by
  cases i <;> simp [effectOf, xaddBody]

@[simp] theorem effectOf_count (i : Instr) (t : State) : (effectOf i t).count = t.count := by
  cases i <;> simp [effectOf, xaddBody]

/-- Only HALT writes the status (R89). -/
theorem effectOf_status (i : Instr) (t : State) :
    (effectOf i t).status = if i = .halt then .halted else t.status := by
  cases i <;> simp [effectOf, xaddBody]

/-- Only CMP, NEG and BSR write Z (R21). -/
theorem effectOf_z (i : Instr) (t : State) :
    (effectOf i t).z = t.z ∨ (∃ a b, i = .cmp a b) ∨ i = .neg ∨ ∃ a b, i = .bsr a b := by
  cases i with
  | cmp a0 a1 => exact .inr (.inl ⟨a0, a1, rfl⟩)
  | neg => exact .inr (.inr (.inl rfl))
  | bsr a0 a1 => exact .inr (.inr (.inr ⟨a0, a1, rfl⟩))
  | _ => exact .inl (by simp [effectOf, xaddBody])

/-- Only SW writes memory (R42). -/
theorem effectOf_mem (i : Instr) (t : State) : (effectOf i t).mem = t.mem ∨ ∃ a b off, i = .sw a b off := by
  cases i with
  | sw a0 a1 off => exact .inr ⟨a0, a1, off, rfl⟩
  | _ => exact .inl (by simp [effectOf, xaddBody])

/-- Only PUSH, POP, IDIV, NEG and JMNE write the stack. -/
theorem effectOf_stack (i : Instr) (t : State) :
    ((effectOf i t).sp = t.sp ∧ (effectOf i t).stk = t.stk) ∨
    (∃ a, i = .push a) ∨ (∃ a, i = .pop a) ∨ i = .idiv ∨ i = .neg ∨ ∃ a b off, i = .jmne a b off := by
  cases i with
  | push a0 => exact .inr (.inl ⟨a0, rfl⟩)
  | pop a0 => exact .inr (.inr (.inl ⟨a0, rfl⟩))
  | idiv => exact .inr (.inr (.inr (.inl rfl)))
  | neg => exact .inr (.inr (.inr (.inr (.inl rfl))))
  | jmne a0 a1 off => exact .inr (.inr (.inr (.inr (.inr ⟨a0, a1, off, rfl⟩))))
  | _ => exact .inl (by simp [effectOf, xaddBody])

/-- Only BEQ, JALR, JMA, JE and JMNE write pc (R87). -/
theorem effectOf_pc (i : Instr) (t : State) :
    (effectOf i t).pc = t.pc ∨ (∃ a b off, i = .beq a b off) ∨ (∃ a b, i = .jalr a b) ∨
      (∃ a b off, i = .jma a b off) ∨ (∃ off, i = .je off) ∨ ∃ a b off, i = .jmne a b off := by
  cases i with
  | beq a0 a1 off => exact .inr (.inl ⟨a0, a1, off, rfl⟩)
  | jalr a0 a1 => exact .inr (.inr (.inl ⟨a0, a1, rfl⟩))
  | jma a0 a1 off => exact .inr (.inr (.inr (.inl ⟨a0, a1, off, rfl⟩)))
  | je off => exact .inr (.inr (.inr (.inr (.inl ⟨off, rfl⟩))))
  | jmne a0 a1 off => exact .inr (.inr (.inr (.inr (.inr ⟨a0, a1, off, rfl⟩))))
  | _ => exact .inl (by simp [effectOf, xaddBody])

/-- No effect writes a register outside R17's column "writes". -/
theorem effectOf_getReg {i : Instr} {r : Reg} (hr : r ∉ writtenRegs i) (t : State) :
    (effectOf i t).getReg r = t.getReg r := by
  have hkeep : ∀ q ∈ writtenRegs i, ∀ (u : State) (v : Word), (u.setReg q v).getReg r = u.getReg r :=
    fun q hq u v => u.getReg_setReg_ne q r v (ne_of_mem_of_not_mem hq hr).symm
  cases i with
  | sw a0 a1 off => rfl
  | _ =>
    simp only [writtenRegs, List.forall_mem_cons] at hkeep
    simp [effectOf, xaddBody, hkeep]

/-- Settles O35: a fault keeps every register, and an effect those outside the table. -/
theorem registersOutsideTheTableAreKept : Obligations.RegistersOutsideTheTableAreKept := by
  intro i s t h r h0 hr
  obtain ⟨-, rfl⟩ | ⟨c, -, rfl⟩ := exec_next_cases h
  · rw [State.getReg_complete, if_neg h0, effectOf_getReg hr, State.getReg_advance]
  · rfl

/-- Settles O37: a fault writes nothing but the fault record, and an effect what its instruction is named for. -/
theorem onlyTheNamedInstructionsWrite : Obligations.OnlyTheNamedInstructionsWrite := by
  intro i s t h
  obtain ⟨-, rfl⟩ | ⟨c, -, rfl⟩ := exec_next_cases h
  · refine ⟨fun hz => ?_, fun hm => ?_, fun hk => ?_, fun _ hp => ?_, fun _ hs => ?_⟩
    · exact (effectOf_z i s.advance).resolve_left hz
    · exact (effectOf_mem i s.advance).resolve_left fun e => hm fun a => congrArg (Memory.read · a) e
    · refine (effectOf_stack i s.advance).resolve_left fun ⟨hsp, hstk⟩ => hk ⟨hsp, fun j => ?_⟩
      simp only [State.getStk, State.complete_stk, hstk, State.advance_stk]
    · exact (effectOf_pc i s.advance).resolve_left fun e => hp (e.trans s.advance_pc)
    · by_contra hi
      exact hs ((effectOf_status i s.advance).trans (if_neg hi))
  · exact ⟨fun hz => absurd rfl hz, fun hm => absurd (fun _ => rfl) hm, fun hk => absurd ⟨rfl, fun _ => rfl⟩ hk,
      fun hf => absurd rfl hf, fun hf => absurd rfl hf⟩

/-! ### The invariant of reachable states -/

/-- IDIV goes on only with two live entries (R117). -/
theorem sp_lt_of_idiv_no_fault {t : State} (hf : bodyFault .idiv t = none) : t.sp < 31 := by
  by_contra h
  simp [bodyFault, Nat.not_lt.1 h] at hf

/-- R26: an effect without a fault keeps sp in [0, 32]. -/
theorem effectOf_sp_le {i : Instr} {t : State} (hf : bodyFault i t = none) (h : t.sp ≤ 32) :
    (effectOf i t).sp ≤ 32 := by
  cases i with
  | idiv =>
    have := sp_lt_of_idiv_no_fault hf
    simp only [effectOf, State.setStk_sp, State.setSp_sp]
    omega
  | jmne a0 a1 off =>
    have : t.sp < 31 := by simpa [bodyFault] using hf
    simp only [effectOf, State.branchIf_sp, State.setSp_sp]
    omega
  | pop a0 =>
    have : t.sp < 32 := by simpa [bodyFault] using hf
    simpa only [effectOf, State.setReg_sp, State.setSp_sp]
  | push a0 =>
    simp only [effectOf, State.setStk_sp, State.setSp_sp]
    omega
  | _ => simpa [effectOf, xaddBody] using h

/-- A store without a fault keeps the canonical memory; no other effect writes memory. -/
theorem effectOf_mem_wf {i : Instr} {t : State} (hf : bodyFault i t = none) (h : t.mem.wf = true) :
    (effectOf i t).mem.wf = true := by
  cases i with
  | sw a0 a1 off =>
    have hin : inMemory (t.effectiveAddress a0 off) = true := by simpa [bodyFault] using hf
    obtain ⟨h0, h4096⟩ := (inMemory_iff _).1 hin
    exact Memory.wf_write _ h (by omega)
  | _ => simpa [effectOf, xaddBody] using h

/-- A fault records its cause and its address and keeps the rest (R90). -/
theorem State.Inv.takeFault {s : State} (h : s.Inv) {c : FaultCause} (hc : c ≠ .none) : (s.takeFault c).Inv where
  r0_zero := h.r0_zero
  sp_le := h.sp_le
  mem_wf := h.mem_wf
  cause_iff := iff_of_false hc fun hs => hs rfl
  faddr_zero hs := absurd rfl hs

/-- An instruction that completes keeps the invariant: r0 is forced, and no effect touches the fault record. -/
theorem State.Inv.effect {s : State} (h : s.Inv) {i : Instr} (hs : s.status = .running) (hf : bodyFault i s = none) :
    (effectOf i s.advance).complete.Inv := by
  have hf' : bodyFault i s.advance = none := (bodyFault_advance i s).trans hf
  have hsafe : s.status ≠ .faulted := by simp [hs]
  have hsafe' : (effectOf i s.advance).status ≠ .faulted := by
    rw [effectOf_status]
    split
    · simp
    · exact hsafe
  exact {
    r0_zero := State.getReg_complete_zero _
    sp_le := effectOf_sp_le hf' h.sp_le
    mem_wf := effectOf_mem_wf hf' h.mem_wf
    cause_iff := iff_of_true ((effectOf_cause i _).trans (h.cause_iff.2 hsafe)) hsafe'
    faddr_zero := fun _ => (effectOf_faddr i _).trans (h.faddr_zero hsafe) }

theorem step_keeps_inv {s t : State} (h : s.Inv) (hstep : step s = .next t) : t.Inv := by
  obtain ⟨-, hs⟩ | ⟨-, c, hc, hs⟩ | ⟨hrun, i, -, hf, hs⟩ := step_cases s
  all_goals rw [hs] at hstep; cases hstep
  · exact h
  · exact h.takeFault hc
  · exact h.effect hrun hf

/-- Settles O40, by the three things a step can do. -/
theorem stepKeepsTheInvariant : Obligations.StepKeepsTheInvariant :=
  fun _ _ => step_keeps_inv

/-- Reset meets the invariant. -/
theorem reset_inv : State.reset.Inv :=
  ⟨by decide, by decide, by decide, by decide, by decide⟩

theorem State.Inv.load {s : State} (h : s.Inv) (words : List Word) : (s.load words).1.Inv := by
  unfold State.load
  split
  · split
    · next hlen => exact { h with mem_wf := Memory.wf_writeAll words h.mem_wf (by simpa using hlen) }
    · exact h
  · exact h

theorem State.Inv.loadText {s : State} (h : s.Inv) (lines : List Text) : (s.loadText lines).1.Inv := by
  unfold State.loadText
  split
  · exact h.load _
  · split <;> exact h

theorem State.Inv.preload {s : State} (h : s.Inv) (r : Reg) (v : Word) : (s.preload r v).1.Inv := by
  unfold State.preload
  split
  · next hr => exact { h with r0_zero := (s.getReg_setReg_ne r 0 v hr.2.symm).trans h.r0_zero }
  · exact h

theorem State.Inv.start {s : State} (h : s.Inv) : s.start.1.Inv := by
  unfold State.start
  split
  · next hidle =>
    have hsafe : s.status ≠ .faulted := by simp [hidle]
    exact { h with
      cause_iff := iff_of_true (h.cause_iff.2 hsafe) (by simp)
      faddr_zero := fun _ => h.faddr_zero hsafe }
  · exact h

/-- Every operation of the host keeps the invariant (R135 to R138). -/
theorem hostOp_keeps_inv (op : HostOp) {s : State} (h : s.Inv) : (hostOp op s).1.Inv := by
  cases op with
  | reset => exact reset_inv
  | load words => exact h.load words
  | loadText lines => exact h.loadText lines
  | preload r v => exact h.preload r v
  | start => exact h.start

theorem hostOps_keep_inv (ops : List HostOp) {s : State} (h : s.Inv) : (hostOps ops s).Inv := by
  induction ops generalizing s with
  | nil => exact h
  | cons op ops ih => exact ih (hostOp_keeps_inv op h)

/-- Every run answers a next state, and what each step keeps holds at its end. -/
theorem core_run_keeps {P : State → Prop} (hP : ∀ s t, P s → step s = .next t → P t) (k : Nat) {s : State} (h : P s) :
    ∃ t, Host.Core.run core k s = .next t ∧ P t := by
  induction k generalizing s with
  | zero => exact ⟨s, rfl, h⟩
  | succ k ih =>
    obtain ⟨u, hu⟩ := step_total s
    rw [core_run_succ k hu]
    exact ih (hP s u h hu)

/-- Settles O42: the host's operations and then the steps keep the invariant that reset meets. -/
theorem everyReachableStateMeetsTheInvariant : Obligations.EveryReachableStateMeetsTheInvariant :=
  fun ops k => core_run_keeps (fun _ _ => step_keeps_inv) k (hostOps_keep_inv ops reset_inv)

end Sys2Proof.Machine
end

section
/-! PROOFS. The count of a run (R30, D17): a run from RUNNING either goes on, one instruction counted per step, or has one
last step, at which HALT or a fault ends it. -/

namespace Sys2Proof.Machine

/-- Outside RUNNING a run of any length stays where it is (R93, R142). -/
theorem core_run_of_not_running {s : State} (h : s.status ≠ .running) (k : Nat) : Host.Core.run core k s = .next s := by
  induction k with
  | zero => rfl
  | succ k ih => rw [core_run_succ k (step_of_not_running h), ih]

/-- A run of `k + m` steps is a run of `m` steps from the end of one of `k`. -/
theorem core_run_add {s t : State} {k : Nat} (h : Host.Core.run core k s = .next t) (m : Nat) :
    Host.Core.run core (k + m) s = Host.Core.run core m t := by
  induction k generalizing s with
  | zero =>
    cases h
    rw [Nat.zero_add]
  | succ k ih =>
    obtain ⟨u, hu⟩ := step_total s
    rw [core_run_succ k hu] at h
    rw [Nat.succ_add, core_run_succ (k + m) hu, ih h]

/-- One step after a run of `k` is a run of `k + 1`. -/
theorem core_run_step {s t u : State} {k : Nat} (h : Host.Core.run core k s = .next t) (hstep : step t = .next u) :
    Host.Core.run core (k + 1) s = .next u := by
  rw [core_run_add h, core_run_succ 0 hstep, core_run_zero]

theorem State.Ended.not_running {s : State} (h : s.Ended) : s.status ≠ .running := by
  rintro hs
  cases h <;> simp_all

/-- The step that ends a run: HALT counts, a fault does not (D17). -/
def EndsBy (s t : State) : Prop :=
  s.status = .running ∧ step s = .next t ∧
    (t.status = .halted ∧ t.count = s.count + 1 ∨ t.status = .faulted ∧ t.count = s.count)

theorem EndsBy.ended {s t : State} (h : EndsBy s t) : t.Ended := by
  obtain ⟨-, -, hlast⟩ := h
  exact hlast.imp And.left And.left

/-- A RUNNING machine's step goes on with one instruction more, or ends the run. -/
theorem step_goes_on_or_ends {s t : State} (hrun : s.status = .running) (hstep : step s = .next t) :
    (t.status = .running ∧ t.count = s.count + 1) ∨ EndsBy s t := by
  obtain ⟨hs, -⟩ | ⟨-, c, -, hs⟩ | ⟨-, i, -, -, hs⟩ := step_cases s
  · exact absurd hrun hs
  · obtain rfl := Host.Outcome.next.inj (hs.symm.trans hstep)
    exact .inr ⟨hrun, hs, .inr ⟨rfl, rfl⟩⟩
  · obtain rfl := Host.Outcome.next.inj (hs.symm.trans hstep)
    have hcount : (effectOf i s.advance).complete.count = s.count + 1 := by simp
    have hstatus := effectOf_status i s.advance
    by_cases hi : i = .halt
    · exact .inr ⟨hrun, hs, .inl ⟨hstatus.trans (if_pos hi), hcount⟩⟩
    · exact .inl ⟨hstatus.trans ((if_neg hi).trans hrun), hcount⟩

/-- All a run of `k` steps from RUNNING can do: go on throughout, or end by the last step of `j + 1` and stay. -/
theorem core_run_cases {s t : State} {k : Nat} (hrun : s.status = .running) (h : Host.Core.run core k s = .next t) :
    (t.status = .running ∧ t.count = s.count + k) ∨
    (∃ j u, j < k ∧ Host.Core.run core j s = .next u ∧ u.count = s.count + j ∧ EndsBy u t) := by
  induction k generalizing t with
  | zero =>
    cases h
    exact .inl ⟨hrun, rfl⟩
  | succ k ih =>
    obtain ⟨v, hv⟩ : ∃ v, Host.Core.run core k s = .next v :=
      (core_run_keeps (P := fun _ => True) (fun _ _ _ _ => trivial) k trivial).imp fun _ => And.left
    obtain ⟨w, hw⟩ := step_total v
    obtain rfl := Host.Outcome.next.inj (h.symm.trans (core_run_step hv hw))
    obtain ⟨hvrun, hcount⟩ | ⟨j, u, hj, hu, hcount, hend⟩ := ih hv
    · obtain ⟨htrun, ht⟩ | hend := step_goes_on_or_ends hvrun hw
      · exact .inl ⟨htrun, by omega⟩
      · exact .inr ⟨k, v, k.lt_succ_self, hv, hcount, hend⟩
    · rw [step_of_not_running hend.ended.not_running] at hw
      cases hw
      exact .inr ⟨j, u, hj.trans k.lt_succ_self, hu, hcount, hend⟩

/-- Settles O43, by `core_run_cases`, and because an ended run stays where it is. -/
theorem countIsTheNumberOfCompletedSteps : Obligations.CountIsTheNumberOfCompletedSteps := by
  intro s t k hrun h
  have hstays : t.Ended → ∀ m, Host.Core.run core (k + m) s = .next t := fun hend m => by
    rw [core_run_add h, core_run_of_not_running hend.not_running]
  obtain ⟨htrun, hcount⟩ | ⟨j, u, hj, hu, hcount, hend⟩ := core_run_cases hrun h
  · exact ⟨.inl htrun, fun _ => hcount, fun he => absurd htrun he.not_running, hstays⟩
  · refine ⟨.inr hend.ended, fun htrun => absurd htrun hend.ended.not_running, fun _ => ?_, hstays⟩
    obtain ⟨hurun, hstep, hlast⟩ := hend
    refine ⟨j, u, hj, hu, hurun, core_run_step hu hstep, fun hh => ?_, fun hf => ?_⟩
    · obtain ⟨-, hc⟩ | ⟨hf, -⟩ := hlast
      · omega
      · simp [hh] at hf
    · obtain ⟨hh, -⟩ | ⟨-, hc⟩ := hlast
      · simp [hf] at hh
      · omega

end Sys2Proof.Machine
end

section
/-! PROOFS. The live stack (R25): what the trace shows, and that nothing else of the stack is ever looked at. -/

namespace Sys2Proof.Machine

/-- The shown stack, entry by entry (R141). -/
theorem State.liveStack_getElem? (s : State) (k : Nat) :
    s.liveStack[k]? = if s.sp + k < 32 then some (s.getStk (s.sp + k)) else none := by
  rw [State.liveStack, List.getElem?_drop, Vector.getElem?_toList, State.getStk]
  split
  · next h => simp [Vector.getElem?_eq_getElem h]
  · next h => exact Vector.getElem?_eq_none (Nat.not_lt.1 h)

/-- Settles O49: dropping `sp` entries of the array leaves the live ones. -/
theorem traceShowsTheLiveStack : Obligations.TraceShowsTheLiveStack := by
  intro s loaded k _
  have hlength : s.liveStack.length = 32 - s.sp := by simp [State.liveStack]
  exact ⟨hlength, s.liveStack_getElem? k⟩

/-! ### States that differ in dead entries -/

/-- No entry is stored past the array's end. -/
theorem State.getStk_of_le (s : State) {j : Nat} (h : 32 ≤ j) : s.getStk j = 0 := by
  rw [State.getStk, Vector.getElem?_eq_none h, Option.getD_none]

section
variable {s s' : State} (h : SameButDeadEntries s s')
include h

/-- The two states are one state with two stack arrays that agree from sp on. -/
theorem SameButDeadEntries.exists_stk :
    ∃ stk, s' = { s with stk := stk } ∧ ∀ j, s.sp ≤ j → State.getStk { s with stk := stk } j = s.getStk j := by
  obtain ⟨hrest, hlive⟩ := h
  exact ⟨s'.stk, hrest, fun j hj => (congrArg (State.getStk · j) hrest).symm.trans (hlive j hj)⟩

theorem SameButDeadEntries.branchIf (c : Bool) (off : Int) :
    SameButDeadEntries (s.branchIf c off) (s'.branchIf c off) := by
  obtain ⟨stk, rfl, hlive⟩ := h.exists_stk
  cases c <;> exact ⟨rfl, hlive⟩

/-- Pops: entries that die leave the relation, live ones stay in it. -/
theorem SameButDeadEntries.setSp {n : Nat} (hn : s.sp ≤ n) : SameButDeadEntries (s.setSp n) (s'.setSp n) := by
  obtain ⟨stk, rfl, hlive⟩ := h.exists_stk
  exact ⟨rfl, fun j hj => hlive j (hn.trans hj)⟩

/-- A write of the same word at any entry. -/
theorem SameButDeadEntries.setStk (j : Nat) (v : Word) : SameButDeadEntries (s.setStk j v) (s'.setStk j v) := by
  obtain ⟨stk, rfl, hlive⟩ := h.exists_stk
  refine ⟨rfl, fun m hm => ?_⟩
  rw [State.getStk_setStk, State.getStk_setStk, hlive m hm]

/-- A push: the entry that comes alive is the one written, with the same word in both. -/
theorem SameButDeadEntries.push (v : Word) :
    SameButDeadEntries ((s.setSp (s.sp - 1)).setStk (s.sp - 1) v) ((s'.setSp (s.sp - 1)).setStk (s.sp - 1) v) := by
  obtain ⟨stk, rfl, hlive⟩ := h.exists_stk
  refine ⟨rfl, fun m hm => ?_⟩
  have hm' : s.sp - 1 ≤ m := hm
  rw [State.getStk_setStk, State.getStk_setStk]
  split
  · rfl
  · next hne =>
    by_cases hsp : s.sp ≤ m
    · exact hlive m hsp
    · have : 32 ≤ m := by omega
      rw [State.getStk_of_le _ this, State.getStk_of_le _ this]

/-- A fault test reads live entries only. -/
theorem bodyFault_sameButDeadEntries (i : Instr) : bodyFault i s' = bodyFault i s := by
  obtain ⟨stk, rfl, hlive⟩ := h.exists_stk
  cases i with
  | idiv => simp only [bodyFault, hlive s.sp le_rfl, hlive (s.sp + 1) (s.sp.le_add_right 1)]
  | _ => rfl

/-- An effect reads live entries only and keeps the relation. -/
theorem effectOf_sameButDeadEntries (i : Instr) : SameButDeadEntries (effectOf i s) (effectOf i s') := by
  obtain ⟨stk, rfl, hlive⟩ := h.exists_stk
  have htop := hlive s.sp le_rfl
  have hsecond := hlive (s.sp + 1) (s.sp.le_add_right 1)
  cases i with
  | beq a0 a1 off | jma a0 a1 off | je off => exact h.branchIf _ off
  | jmne a0 a1 off =>
    simp only [effectOf, htop, hsecond]
    exact (h.setSp (s.sp.le_add_right 2)).branchIf _ off
  | idiv =>
    simp only [effectOf, htop, hsecond]
    exact (h.setSp (s.sp.le_add_right 1)).setStk _ _
  | neg =>
    simp only [effectOf, htop]
    obtain ⟨hrest, hlive'⟩ := h.setStk s.sp (negW (s.getStk s.sp))
    exact ⟨congrArg (State.setZ · _) hrest, hlive'⟩
  | pop a0 =>
    simp only [effectOf, htop]
    exact ⟨rfl, fun j hj => hlive j (s.sp.le_succ.trans hj)⟩
  | push a0 => exact h.push _
  | _ => exact ⟨rfl, hlive⟩

theorem SameButDeadEntries.takeFault (c : FaultCause) : SameButDeadEntries (s.takeFault c) (s'.takeFault c) := by
  obtain ⟨stk, rfl, hlive⟩ := h.exists_stk
  exact ⟨rfl, hlive⟩

theorem SameButDeadEntries.advance : SameButDeadEntries s.advance s'.advance := by
  obtain ⟨stk, rfl, hlive⟩ := h.exists_stk
  exact ⟨rfl, hlive⟩

theorem SameButDeadEntries.complete : SameButDeadEntries s.complete s'.complete := by
  obtain ⟨stk, rfl, hlive⟩ := h.exists_stk
  exact ⟨rfl, hlive⟩

theorem SameButDeadEntries.status_eq : s'.status = s.status := by
  obtain ⟨stk, rfl, -⟩ := h.exists_stk
  rfl

/-- The fetch looks at pc and memory only. -/
theorem SameButDeadEntries.fetchInstr_eq : s'.fetchInstr = s.fetchInstr := by
  obtain ⟨stk, rfl, -⟩ := h.exists_stk
  rfl

theorem SameButDeadEntries.statusView_eq : s'.statusView = s.statusView := by
  obtain ⟨stk, rfl, -⟩ := h.exists_stk
  rfl

theorem SameButDeadEntries.liveStack_eq : s'.liveStack = s.liveStack := by
  obtain ⟨stk, rfl, hlive⟩ := h.exists_stk
  refine List.ext_getElem? fun k => ?_
  rw [State.liveStack_getElem?, State.liveStack_getElem?, hlive _ (s.sp.le_add_right k)]

theorem exec_sameButDeadEntries (i : Instr) :
    ∃ t t', exec i s = .next t ∧ exec i s' = .next t' ∧ SameButDeadEntries t t' := by
  cases hf : bodyFault i s with
  | none =>
    have hf' := (bodyFault_sameButDeadEntries h i).trans hf
    exact ⟨_, _, exec_of_no_fault hf, exec_of_no_fault hf', (effectOf_sameButDeadEntries h.advance i).complete⟩
  | some c =>
    have hf' := (bodyFault_sameButDeadEntries h i).trans hf
    exact ⟨_, _, exec_of_fault hf, exec_of_fault hf', h.takeFault c⟩

theorem step_sameButDeadEntries :
    ∃ t t', step s = .next t ∧ step s' = .next t' ∧ SameButDeadEntries t t' := by
  by_cases hs : s.status = .running
  · rw [step_of_running hs, step_of_running (h.status_eq.trans hs), cycle, cycle, h.fetchInstr_eq]
    cases s.fetchInstr with
    | error c => exact ⟨_, _, rfl, rfl, h.takeFault c⟩
    | ok i => exact exec_sameButDeadEntries h i
  · exact ⟨s, s', step_of_not_running hs, step_of_not_running (h.status_eq ▸ hs), h⟩

end

/-- Settles O38: the step keeps the relation, and what it shows of related states is the same. -/
theorem deadStackEntriesAreUnobservable : Obligations.DeadStackEntriesAreUnobservable := by
  intro s s' h
  obtain ⟨t, t', hs, hs', ht⟩ := step_sameButDeadEntries h
  exact ⟨t, t', hs, hs', ht, ht.statusView_eq, ht.liveStack_eq⟩

end Sys2Proof.Machine
end

section
/-! PROOFS. A store is seen by the fetch that follows it (R41, R49): fetch and store go through one memory. -/

namespace Sys2Proof.Machine

/-- The word a state is about to execute is the one whose decoding it fetches. -/
theorem Fetches.fetchInstr_eq {s : State} {w : Word} {i : Instr} (h : Fetches s w) (hw : decode w = .ok i) :
    s.fetchInstr = .ok i := by
  obtain ⟨-, h0, h4096, hread⟩ := h
  obtain ⟨-, hf⟩ | ⟨hout, -⟩ := s.fetch_cases
  · rw [hread] at hf
    rw [State.fetchInstr_of_fetch hf, hw]
  · exact absurd ⟨h0, h4096⟩ hout

/-- A step of such a state is that instruction's execution (R86). -/
theorem Fetches.step_eq_exec {s : State} {w : Word} {i : Instr} (h : Fetches s w) (hw : decode w = .ok i) :
    step s = exec i s := by
  rw [step_of_running h.1, cycle, h.fetchInstr_eq hw]

/-- The post-increment pc as an integer, where a signed word holds it (R87). -/
theorem State.sval_advance_pc {s : State} (h : sval s.pc < 2147483647) : sval s.advance.pc = sval s.pc + 1 := by
  have hlow : -2147483648 ≤ sval s.pc := le_sval s.pc
  exact sval_wrap (by omega) (by omega)

/-- A store at an address inside memory raises no fault (R37, R106). -/
theorem bodyFault_sw_of_inMemory {a0 : Reg} (a1 : Reg) {off : Int} {s : State}
    (h : 0 ≤ s.effectiveAddress a0 off ∧ s.effectiveAddress a0 off < 4096) : bodyFault (.sw a0 a1 off) s = none :=
  if_pos ((inMemory_iff _).2 h)

/-- The stored word is what the address reads after a store to a canonical memory (R106). -/
theorem effectOf_sw_read_same {s : State} (a0 a1 : Reg) (off : Int) (hm : s.mem.wf = true) :
    (effectOf (.sw a0 a1 off) s).mem.read (s.effectiveAddress a0 off).toNat = s.getReg a1 :=
  Memory.read_write_same _ _ hm

/-- Settles O24: the step is the store, which keeps RUNNING and leaves pc at the address it has just written. -/
theorem storeIsSeenByTheNextFetch : Obligations.StoreIsSeenByTheNextFetch := by
  intro s a0 a1 off w hm hfetch hw hea hpc
  have ⟨hrun, h0, _, _⟩ := hfetch
  have haddr : s.effectiveAddress a0 off = sval s.pc + 1 := hea
  have hnext : sval s.advance.pc = s.effectiveAddress a0 off := (State.sval_advance_pc (by omega)).trans hea.symm
  have hok : bodyFault (.sw a0 a1 off) s = none := bodyFault_sw_of_inMemory a1 (by omega)
  refine ⟨_, (hfetch.step_eq_exec hw).trans (exec_of_no_fault hok), hrun, ?_, ?_, ?_⟩
  · show 0 ≤ sval s.advance.pc
    omega
  · show sval s.advance.pc < 4096
    omega
  · show (effectOf (.sw a0 a1 off) s.advance).mem.read (sval s.advance.pc).toNat = s.getReg a1
    rw [hnext]
    exact effectOf_sw_read_same a0 a1 off hm

end Sys2Proof.Machine
end

section
/-! PROOFS. Encoding and decoding (R51 to R73): the word of an instruction is one packing sum of four operand columns, the
decoder reads the same columns back, and both directions of the round trip follow. -/

namespace Sys2Proof

/-! ### The decoder by the instruction it answers -/

/-- An instruction with its operands taken from the fields of a word. -/
def Instr.withFields (d : Fields) : Instr → Instr
  | .add _ _ _ => .add d.arg0 d.arg1 d.arg2
  | .nand _ _ _ => .nand d.arg0 d.arg1 d.arg2
  | .lw _ _ _ => .lw d.arg0 d.arg1 d.off
  | .sw _ _ _ => .sw d.arg0 d.arg1 d.off
  | .beq _ _ _ => .beq d.arg0 d.arg1 d.off
  | .jalr _ _ => .jalr d.arg0 d.arg1
  | .halt => .halt
  | .noop => .noop
  | .idiv => .idiv
  | .dec _ => .dec d.arg0
  | .xadd _ _ _ => .xadd d.arg0 d.arg1 d.arg2
  | .shl _ _ _ => .shl d.arg0 d.arg1 d.arg2
  | .or _ _ _ => .or d.arg0 d.arg1 d.arg2
  | .neg => .neg
  | .jma _ _ _ => .jma d.arg0 d.arg1 d.off
  | .jmne _ _ _ => .jmne d.arg0 d.arg1 d.off
  | .cmp _ _ => .cmp d.arg0 d.arg1
  | .je _ => .je d.off
  | .bsr _ _ => .bsr d.arg0 d.arg1
  | .pop _ => .pop d.arg0
  | .push _ => .push d.arg0

/-- Legal fields with an instruction's opcode decode to it, with the operands of the fields (R58). -/
theorem instrOfFields_of_opcode {d : Fields} {i : Instr} (hlegal : d.legal = true) (hop : d.opcode = i.opcode) :
    instrOfFields d = .ok (i.withFields d) := by
  cases i <;> simp only [instrOfFields, hlegal, hop, Instr.opcode] <;> rfl

/-- What decodes is an opcode and the operands its instruction takes, and nothing else (R58, R62). -/
theorem instrOfFields_ok {d : Fields} {i : Instr} (h : instrOfFields d = .ok i) :
    d.opcode = i.opcode ∧ i = i.withFields d := by
  unfold instrOfFields at h
  split at h
  · cases h
  · split at h <;> cases h <;> exact ⟨‹_›, rfl⟩

/-- A word that decodes holds the instruction's opcode and operands. -/
theorem decode_ok {w : Word} {i : Instr} (h : decode w = .ok i) :
    w.toNat / 2097152 = i.opcode ∧ i = i.withFields (decodeFields w) := by
  rw [← decodeFields_opcode]
  exact instrOfFields_ok h

theorem decodeFields_off (w : Word) : (decodeFields w).off = sext15 (w.toNat % 32768) := by
  show sext15 (w.toNat / 1 % 32768) = _
  rw [Nat.div_one]

theorem decodeFields_arg0_val (w : Word) : (decodeFields w).arg0.val = w.toNat / 262144 % 8 := by
  show w.toNat / 262144 % 8 % 8 = _
  omega

theorem decodeFields_arg1_val (w : Word) : (decodeFields w).arg1.val = w.toNat / 32768 % 8 := by
  show w.toNat / 32768 % 8 % 8 = _
  omega

theorem decodeFields_arg2_val (w : Word) : (decodeFields w).arg2.val = w.toNat % 8 := by
  show w.toNat / 1 % 8 % 8 = _
  omega

/-! ### Sign extension and masking -/

theorem sext15_range {f : Nat} (h : f < 32768) : -16384 ≤ sext15 f ∧ sext15 f ≤ 16383 := by
  rw [sext15_eq h]
  split <;> omega

/-- Masking undoes sign extension (R54, R65). -/
theorem maskOffset_sext15 {f : Nat} (h : f < 32768) : maskOffset (sext15 f) = f := by
  rw [maskOffset_eq, sext15_eq h]
  split <;> omega

/-- What the field holds of every offset the encoder accepts: the offset itself, but for the collision of R67. -/
theorem sext15_maskOffset_of_accepted {v : Int} (h1 : -16384 ≤ v) (h2 : v ≤ 16384) :
    sext15 (maskOffset v) = if v = 16384 then -16384 else v := by
  split
  · next h => rw [h]; decide
  · next h => exact sext15_maskOffset h1 (by omega)

/-- Settles O2: `sext15` and `maskOffset` undo each other between the fields and the range. -/
theorem signExtensionIsABijection : Obligations.SignExtensionIsABijection := by
  refine ⟨fun f _ => rfl, fun f hf => sext15_range hf, fun v h1 h2 => ?_, decodeFields_off⟩
  refine ⟨maskOffset v, ⟨maskOffset_lt v, sext15_maskOffset h1 h2⟩, fun g hg hv => ?_⟩
  rw [← hv, maskOffset_sext15 hg]

/-! ### The encoder as one packing sum -/

/-- What the encoder packs into the field arg0 (R66); 0 where the format has none. -/
def Instr.packedArg0 : Instr → Reg
  | .add a _ _ | .nand a _ _ | .xadd a _ _ | .shl a _ _ | .or a _ _ => a
  | .lw a _ _ | .sw a _ _ | .beq a _ _ | .jma a _ _ | .jmne a _ _ => a
  | .jalr a _ | .cmp a _ | .bsr a _ => a
  | .dec a | .pop a | .push a => a
  | .je _ | .halt | .noop | .idiv | .neg => 0

/-- What the encoder packs into the field arg1 (R66); 0 where the format has none. -/
def Instr.packedArg1 : Instr → Reg
  | .add _ b _ | .nand _ b _ | .xadd _ b _ | .shl _ b _ | .or _ b _ => b
  | .lw _ b _ | .sw _ b _ | .beq _ b _ | .jma _ b _ | .jmne _ b _ => b
  | .jalr _ b | .cmp _ b | .bsr _ b => b
  | .dec _ | .pop _ | .push _ | .je _ | .halt | .noop | .idiv | .neg => 0

/-- What the encoder packs into the low 15 bits (R66): arg2, the masked offset, or 0. -/
def Instr.packedLow : Instr → Nat
  | .add _ _ c | .nand _ _ c | .xadd _ _ c | .shl _ _ c | .or _ _ c => packArg2 c
  | .lw _ _ v | .sw _ _ v | .beq _ _ v | .jma _ _ v | .jmne _ _ v | .je v => maskOffset v
  | .jalr _ _ | .cmp _ _ | .bsr _ _ | .dec _ | .pop _ | .push _ | .halt | .noop | .idiv | .neg => 0

theorem encode_eq_pack (i : Instr) : encode i = pack i.opcode i.packedArg0 i.packedArg1 i.packedLow := by
  cases i <;> rfl

theorem Instr.opcode_lt (i : Instr) : i.opcode < 21 := by
  cases i <;> simp [Instr.opcode]

theorem Instr.packedLow_lt (i : Instr) : i.packedLow < 32768 := by
  cases i with
  | add _ _ c | nand _ _ c | xadd _ _ c | shl _ _ c | or _ _ c => exact packArg2_lt c
  | lw _ _ v | sw _ _ v | beq _ _ v | jma _ _ v | jmne _ _ v | je v => exact maskOffset_lt v
  | _ => exact Nat.zero_lt_succ _

/-- The low bits of an instruction with an offset are the masked offset. -/
theorem Instr.packedLow_of_offset {i : Instr} {v : Int} (h : i.offset? = some v) : i.packedLow = maskOffset v := by
  cases i <;> cases h <;> rfl

/-- The value of an instruction's word. -/
theorem encode_toNat (i : Instr) : (encode i).toNat =
    i.opcode * 2097152 + i.packedArg0.val * 262144 + i.packedArg1.val * 32768 + i.packedLow := by
  rw [encode_eq_pack]
  exact pack_toNat i.opcode_lt i.packedArg0.val_lt i.packedArg1.val_lt i.packedLow_lt

/-- Every field of an instruction's word. -/
theorem decodeFields_encode (i : Instr) : decodeFields (encode i) =
    { opcode := i.opcode, legal := true, arg0 := i.packedArg0, arg1 := i.packedArg1,
      arg2 := regOf (i.packedLow % 8), off := sext15 i.packedLow } := by
  rw [encode_eq_pack]
  exact decodeFields_pack i.packedArg0 i.packedArg1 i.opcode_lt i.packedLow_lt

/-- The offset that an instruction's word holds (R60, R65). -/
theorem decodeFields_encode_off {i : Instr} {v : Int} (h : i.offset? = some v) :
    (decodeFields (encode i)).off = sext15 (maskOffset v) := by
  rw [decodeFields_encode, i.packedLow_of_offset h]

/-! ### Decoding an encoded instruction -/

/-- An encoded instruction decodes to itself with the operands its word holds. -/
theorem decode_encode (i : Instr) : decode (encode i) = .ok (i.withFields (decodeFields (encode i))) :=
  instrOfFields_of_opcode (by rw [decodeFields_encode]) (by rw [decodeFields_encode])

/-- arg2 survives its place in the low bits. -/
theorem regOf_packArg2 (c : Reg) : regOf (packArg2 c % 8) = c := by
  have := c.val_lt
  apply Fin.ext
  show packArg2 c % 8 % 8 = c.val
  rw [packArg2_eq]
  omega

/-- The word of a well-formed instruction holds the instruction's own operands. -/
theorem withFields_encode {i : Instr} (h : i.wellFormed = true) : i.withFields (decodeFields (encode i)) = i := by
  have hoff : ∀ v, i.offset? = some v → (decodeFields (encode i)).off = v := fun v hv => by
    have hfits : -16384 ≤ v ∧ v ≤ 16383 := by simpa [Instr.wellFormed, hv, offsetFits] using h
    rw [decodeFields_encode_off hv, sext15_maskOffset hfits.1 hfits.2]
  cases i with
  | add a b c | nand a b c | xadd a b c | shl a b c | or a b c =>
    simp only [Instr.withFields, decodeFields_encode, Instr.packedArg0, Instr.packedArg1, Instr.packedLow, regOf_packArg2]
  | lw a b v | sw a b v | beq a b v | jma a b v | jmne a b v =>
    simp only [Instr.withFields, hoff v rfl]
    simp only [decodeFields_encode, Instr.packedArg0, Instr.packedArg1]
  | je v => simp only [Instr.withFields, hoff v rfl]
  | _ => simp only [Instr.withFields, decodeFields_encode, Instr.packedArg0, Instr.packedArg1]

/-! ### The range check -/

theorem encodeCheckedWith_of_no_offset {i : Instr} (m : Int) (h : i.offset? = none) :
    encodeCheckedWith m i = .ok (encode i) := by
  simp only [encodeCheckedWith, h]

/-- An offset is encoded inside the range and refused by its value outside (R65). -/
theorem encodeCheckedWith_of_offset {i : Instr} {v : Int} (m : Int) (h : i.offset? = some v) :
    encodeCheckedWith m i = if -16384 ≤ v ∧ v ≤ m then .ok (encode i) else .error (.rangeError v) := by
  by_cases hrange : -16384 ≤ v ∧ v ≤ m
  · simp only [encodeCheckedWith, h, encOffsetWith, Config.offMin, if_pos hrange]
  · simp only [encodeCheckedWith, h, encOffsetWith, Config.offMin, if_neg hrange]

theorem encodeChecked_of_accepted {i : Instr} {v : Int} (h : i.offset? = some v) (h1 : -16384 ≤ v) (h2 : v ≤ 16384) :
    encodeChecked i = .ok (encode i) :=
  (encodeCheckedWith_of_offset 16384 h).trans (if_pos ⟨h1, h2⟩)

theorem encodeChecked_of_wellFormed {i : Instr} (h : i.wellFormed = true) : encodeChecked i = .ok (encode i) := by
  cases hv : i.offset? with
  | none => exact encodeCheckedWith_of_no_offset 16384 hv
  | some v =>
    have hfits : -16384 ≤ v ∧ v ≤ 16383 := by simpa [Instr.wellFormed, hv, offsetFits] using h
    exact encodeChecked_of_accepted hv hfits.1 (by omega)

/-- Settles O3: the decoder reads each column of the packing sum back; R72's exception is the mask of 16384. -/
theorem decodeUndoesEncode : Obligations.DecodeUndoesEncode := by
  refine ⟨fun i hi => ?_, fun i hi => ?_, fun a b c i hi => ?_⟩
  · refine ⟨encode i, encodeChecked_of_wellFormed hi, by rw [decodeFields_encode], by rw [decodeFields_encode], ?_⟩
    rw [decode_encode, withFields_encode hi]
  · exact ⟨encode i, encodeChecked_of_accepted hi (by decide) le_rfl, decodeFields_encode_off hi⟩
  · have hlow : i.packedLow = c.val := by
      rw [← packArg2_eq c]
      rcases hi with rfl | rfl | rfl | rfl | rfl <;> rfl
    rw [decodeFields_encode, hlow]

/-- Equal masked offsets give equal words, whatever the instruction's other operands. -/
theorem encodeCheckedWith_collision (mk : Int → Instr) (hoff : ∀ v, (mk v).offset? = some v)
    (hword : encode (mk 16384) = encode (mk (-16384))) :
    encodeCheckedWith 16384 (mk 16384) = encodeCheckedWith 16384 (mk (-16384)) := by
  rw [encodeCheckedWith_of_offset _ (hoff _), encodeCheckedWith_of_offset _ (hoff _), hword]
  rfl

/-- The two offsets of R67 have one field. -/
theorem maskOffset_collision : maskOffset 16384 = maskOffset (-16384) := by decide

/-- Settles O4: the fields of 16384 and -16384 are the same, and only the bound tells the two offsets apart. -/
theorem boundaryOffsetCollides : Obligations.BoundaryOffsetCollides := by
  have hpack : ∀ op a b, pack op a b (maskOffset 16384) = pack op a b (maskOffset (-16384)) := fun op a b => by
    rw [maskOffset_collision]
  refine ⟨fun a b => ?_, fun i hi => ⟨?_, ?_⟩⟩
  · exact ⟨encodeCheckedWith_collision (.lw a b) (fun _ => rfl) (hpack 2 a b),
      encodeCheckedWith_collision (.sw a b) (fun _ => rfl) (hpack 3 a b),
      encodeCheckedWith_collision (.beq a b) (fun _ => rfl) (hpack 4 a b),
      encodeCheckedWith_collision (.jma a b) (fun _ => rfl) (hpack 14 a b),
      encodeCheckedWith_collision (.jmne a b) (fun _ => rfl) (hpack 15 a b),
      encodeCheckedWith_collision .je (fun _ => rfl) (hpack 17 0 0)⟩
  · exact ⟨encode i, encodeChecked_of_accepted hi (by decide) le_rfl, decodeFields_encode_off hi⟩
  · rw [encodeCheckedWith_of_offset _ hi, if_neg (by decide)]

/-- Settles O5: the check is on the offset, and the low 15 bits of the packing sum are the mask alone. -/
theorem encoderChecksTheOffsetRange : Obligations.EncoderChecksTheOffsetRange := by
  intro i v hv
  refine ⟨fun h1 h2 => ⟨encode i, encodeChecked_of_accepted hv h1 h2, ?_⟩, fun hout => ?_⟩
  · rw [encode_toNat, i.packedLow_of_offset hv, maskOffset_eq]
    omega
  · exact (encodeCheckedWith_of_offset 16384 hv).trans (if_neg hout)

/-! ### Encoding a decoded word -/

/-- The lowest bit of the run of used bits that starts at bit 31 (R56). -/
def Format.highFrom : Format → Nat
  | .r3 | .r2i | .r2 => 15
  | .r1 => 18
  | .i | .n => 21

/-- The number of used bits from bit 0 up, below that run (R56). -/
def Format.lowWidth : Format → Nat
  | .r3 => 3
  | .r2i | .i => 15
  | .r2 | .r1 | .n => 0

/-- A format's used bits are a run down from bit 31 and a run up from bit 0. -/
theorem usedBits_eq (f : Format) :
    Machine.usedBits f = BitVec.allOnes 32 <<< f.highFrom ||| BitVec.ofNat 32 (2 ^ f.lowWidth - 1) := by
  cases f <;> rfl

theorem Format.lowWidth_le (f : Format) : f.lowWidth ≤ f.highFrom := by
  cases f <;> decide

theorem Format.lowWidth_lt (f : Format) : f.lowWidth < 32 := by
  cases f <;> decide

theorem toNat_and_allOnes_shiftLeft (w : Word) (k : Nat) :
    (w &&& BitVec.allOnes 32 <<< k).toNat = 2 ^ k * (w.toNat / 2 ^ k) := by
  rw [← BitVec.shiftLeft_ushiftRight, BitVec.toNat_shiftLeft, BitVec.toNat_ushiftRight, Nat.shiftRight_eq_div_pow,
    Nat.shiftLeft_eq, Nat.mul_comm]
  exact Nat.mod_eq_of_lt ((Nat.mul_div_le _ _).trans_lt w.isLt)

theorem toNat_and_two_pow_sub_one (w : Word) {m : Nat} (h : m < 32) :
    (w &&& BitVec.ofNat 32 (2 ^ m - 1)).toNat = w.toNat % 2 ^ m := by
  have hm : 2 ^ m - 1 < 2 ^ 32 := (Nat.sub_le _ _).trans_lt (Nat.pow_lt_pow_right (by decide) h)
  rw [BitVec.toNat_and, BitVec.toNat_ofNat, Nat.mod_eq_of_lt hm, Nat.and_two_pow_sub_one_eq_mod]

/-- A word with the bits that a format does not use cleared. -/
theorem toNat_and_usedBits (w : Word) (f : Format) : (w &&& Machine.usedBits f).toNat =
    2 ^ f.highFrom * (w.toNat / 2 ^ f.highFrom) + w.toNat % 2 ^ f.lowWidth := by
  have hlow : w.toNat % 2 ^ f.lowWidth < 2 ^ f.highFrom :=
    (Nat.mod_lt _ (Nat.two_pow_pos _)).trans_le (Nat.pow_le_pow_right (by decide) f.lowWidth_le)
  rw [usedBits_eq, BitVec.and_or_distrib_left, BitVec.toNat_or, toNat_and_allOnes_shiftLeft,
    toNat_and_two_pow_sub_one w f.lowWidth_lt, Nat.two_pow_add_eq_or_of_lt hlow]

/-- An instruction whose operands are a word's fields is well-formed. -/
theorem withFields_wellFormed (w : Word) (i : Instr) : (i.withFields (decodeFields w)).wellFormed = true := by
  have hfits : offsetFits (decodeFields w).off = true := by
    rw [decodeFields_off]
    simpa [offsetFits] using sext15_range (Nat.mod_lt w.toNat (by decide))
  cases i with
  | lw | sw | beq | jma | jmne | je => exact hfits
  | _ => rfl

/-- The offset that a word holds is packed as the word's low 15 bits. -/
theorem maskOffset_decodeFields_off (w : Word) : maskOffset (decodeFields w).off = w.toNat % 32768 := by
  rw [decodeFields_off, maskOffset_sext15 (Nat.mod_lt _ (by decide))]

/-- The packing sum of the fields of a word, format by format: each field goes back to where it was read. -/
theorem encode_withFields {w : Word} {i : Instr} (hop : w.toNat / 2097152 = i.opcode) :
    encode (i.withFields (decodeFields w)) = w &&& Machine.usedBits i.format := by
  have h0 := decodeFields_arg0_val w
  have h1 := decodeFields_arg1_val w
  have h2 := decodeFields_arg2_val w
  have hlow := maskOffset_decodeFields_off w
  apply BitVec.eq_of_toNat_eq
  rw [encode_toNat, toNat_and_usedBits]
  cases i with
  | add | nand | xadd | shl | or =>
    simp only [Instr.withFields, Instr.opcode, Instr.packedArg0, Instr.packedArg1, Instr.packedLow, packArg2_eq,
      Instr.format, Format.highFrom, Format.lowWidth, h0, h1, h2] at hop ⊢
    omega
  | lw | sw | beq | jma | jmne | je =>
    simp only [Instr.withFields, Instr.opcode, Instr.packedArg0, Instr.packedArg1, Instr.packedLow, hlow,
      Instr.format, Format.highFrom, Format.lowWidth, h0, h1, Fin.val_zero] at hop ⊢
    omega
  | _ =>
    simp only [Instr.withFields, Instr.opcode, Instr.packedArg0, Instr.packedArg1, Instr.packedLow,
      Instr.format, Format.highFrom, Format.lowWidth, h0, h1, Fin.val_zero] at hop ⊢
    omega

/-- Settles O6: a word that decodes is its opcode and fields, which the encoder packs where they stood. -/
theorem encodeUndoesDecodeOnUsedBits : Obligations.EncodeUndoesDecodeOnUsedBits := by
  intro w i h
  obtain ⟨hop, hfields⟩ := decode_ok h
  constructor
  · rw [hfields]
    exact withFields_wellFormed w i
  · rw [← encode_withFields hop, ← hfields]

/-! ### Listed and illegal words -/

/-- Settles O1, by running the decoder on the nine words. -/
theorem listedWordsDecode : Obligations.ListedWordsDecode := by
  unfold Obligations.ListedWordsDecode
  decide

/-- A word is no instruction exactly by its opcode (R61). -/
theorem decode_error_iff (w : Word) : (∃ e, decode w = .error e) ↔ 20 < w.toNat / 2097152 := by
  obtain ⟨hop, hdec⟩ | ⟨hop, i, hdec, -⟩ := decode_cases w
  · exact iff_of_true ⟨_, hdec⟩ hop
  · exact iff_of_false (fun ⟨e, he⟩ => by rw [hdec] at he; cases he) (Nat.not_lt.2 hop)

/-- A word with opcode 0 is an ADD of its fields (R58). -/
theorem decode_of_opcode_zero {w : Word} (h : w.toNat / 2097152 = 0) :
    decode w = .ok (.add (decodeFields w).arg0 (decodeFields w).arg1 (decodeFields w).arg2) := by
  have hop : (decodeFields w).opcode = 0 := (decodeFields_opcode w).trans h
  have hlegal : (decodeFields w).legal = true := by rw [decodeFields_legal, hop]; rfl
  exact instrOfFields_of_opcode (i := .add 0 0 0) hlegal hop

end Sys2Proof

namespace Sys2Proof.Machine

/-- The word a state is about to execute is the one it fetches (R85). -/
theorem Fetches.fetch_eq {s : State} {w : Word} (h : Fetches s w) : s.fetch = .ok w := by
  obtain ⟨-, h0, h4096, rfl⟩ := h
  exact (s.fetch_cases.resolve_right fun hout => hout.1 ⟨h0, h4096⟩).2

/-- Fetching a word that is no instruction faults ILLEGAL_OPCODE (R86). -/
theorem Fetches.step_of_illegal {s : State} {w : Word} {e : DecodeError} (h : Fetches s w) (hw : decode w = .error e) :
    step s = .next (s.takeFault .illegalOpcode) := by
  rw [step_of_running h.1, cycle, State.fetchInstr_of_fetch h.fetch_eq, hw]

/-- Settles O7: the opcode field alone decides, and its value exceeds 20 in every negative word. -/
theorem illegalWordsAreExactlyOpcodesAbove20 : Obligations.IllegalWordsAreExactlyOpcodesAbove20 := by
  refine ⟨decode_error_iff, fun w hneg => ?_, fun w hw => ?_, by decide, fun s w hs hop => ?_⟩
  · have hsign : 2 ^ 32 ≤ 2 * w.toNat := BitVec.toInt_neg_iff.1 hneg
    exact (decode_error_iff w).2 (by omega)
  · exact ⟨_, _, _, decode_of_opcode_zero (by omega), decodeFields_arg0_val w, decodeFields_arg1_val w,
      decodeFields_arg2_val w⟩
  · obtain ⟨e, he⟩ := (decode_error_iff w).2 hop
    exact hs.step_of_illegal he

end Sys2Proof.Machine
end

section
/-! PROOFS. Decimal text: what the parsers of R78, R79 and R82 accept, and that a rendered word is read back. -/

namespace Sys2Proof.Machine

/-- Purely-numeric text (R78), and the value it is read as. -/
theorem parseNat_eq_some_iff {t : Text} {n : Nat} :
    parseNat t = some n ↔ t ≠ [] ∧ (∀ c ∈ t, c.isDigit = true) ∧ digitsValue t = n := by
  simp [parseNat, and_assoc]

/-- A text that starts with a digit has no sign, so as a literal it is its digits (R79). -/
theorem parseInt_of_parseNat {t : Text} {n : Nat} (h : parseNat t = some n) : parseInt t = some (n : Int) := by
  obtain ⟨hne, hdigits, -⟩ := parseNat_eq_some_iff.1 h
  unfold parseInt
  split
  · next rest => exact absurd (hdigits '-' List.mem_cons_self) (by decide)
  · rw [h]
    rfl

theorem parseInt_minus {t : Text} {n : Nat} (h : parseNat t = some n) : parseInt ('-' :: t) = some (-(n : Int)) := by
  rw [parseInt, h]
  rfl

/-- The character of a decimal digit is a digit with that value. -/
theorem digitChar_spec {d : Nat} (h : d < 10) :
    (Char.ofNat (48 + d)).isDigit = true ∧ (Char.ofNat (48 + d)).toNat - 48 = d := by
  interval_cases d <;> decide

/-- One more digit at the end of a text. -/
theorem digitsValue_append_digit (t : Text) {d : Nat} (h : d < 10) :
    digitsValue (t ++ [Char.ofNat (48 + d)]) = 10 * digitsValue t + d := by
  simp only [digitsValue, List.foldl_append, List.foldl_cons, List.foldl_nil, (digitChar_spec h).2]

/-- The digits of a number that has at most `fuel` of them are read back as the number. -/
theorem parseNat_decimalDigits {fuel n : Nat} (hfuel : 0 < fuel) (h : n < 10 ^ fuel) :
    parseNat (decimalDigits fuel n) = some n := by
  rw [parseNat_eq_some_iff]
  induction fuel generalizing n with
  | zero => exact absurd hfuel (lt_irrefl 0)
  | succ fuel ih =>
    rw [decimalDigits]
    split
    · next hn =>
      obtain ⟨hdigit, -⟩ := digitChar_spec hn
      exact ⟨by simp, by simpa using hdigit, (digitsValue_append_digit [] hn).trans (Nat.zero_add n)⟩
    · next hn =>
      have hfuel' : 0 < fuel := Nat.pos_of_ne_zero fun h0 => hn (by simpa [h0] using h)
      have hdiv : n / 10 < 10 ^ fuel := Nat.div_lt_of_lt_mul (by rwa [pow_succ'] at h)
      have hmod : n % 10 < 10 := Nat.mod_lt n (by decide)
      obtain ⟨-, hdigits, hvalue⟩ := ih hfuel' hdiv
      refine ⟨by simp, fun c hc => ?_, ?_⟩
      · obtain hc | hc := List.mem_append.1 hc
        · exact hdigits c hc
        · rw [List.mem_singleton.1 hc]
          exact (digitChar_spec hmod).1
      · rw [digitsValue_append_digit _ hmod, hvalue]
        omega

/-- The machine-code line of a word is a literal of its signed value (R82). -/
theorem parseInt_renderWord (w : Word) : parseInt (renderWord w) = some (sval w) := by
  have hlow : -2147483648 ≤ sval w := le_sval w
  have hhigh : sval w < 2147483648 := sval_lt w
  have hdigits := parseNat_decimalDigits (fuel := 32) (n := (sval w).natAbs) (by decide) (by omega)
  unfold renderWord
  split
  · rw [parseInt_minus hdigits]
    congr 1
    omega
  · rw [parseInt_of_parseNat hdigits]
    congr 1
    omega

/-- A machine-code line gives its word back. -/
theorem parseWordLine_renderWord (w : Word) : parseWordLine (renderWord w) = some w := by
  have hfits : fitsWord (sval w) = true := (fitsWord_iff _).2 ⟨le_sval w, Int.le_of_lt_add_one (sval_lt w)⟩
  simp only [parseWordLine, parseInt_renderWord, hfits, if_true, wrap_sval]

theorem parseWordLines_map_renderWord (ws : List Word) : parseWordLines (ws.map renderWord) = some ws := by
  induction ws with
  | nil => rfl
  | cons w ws ih => rw [List.map_cons, parseWordLines, parseWordLine_renderWord, ih]

/-- Settles O46: the lines are read back as the words, which are then loaded. -/
theorem machineCodeLinesLoadTheirWords : Obligations.MachineCodeLinesLoadTheirWords := by
  intro s ws
  simp only [hostOp, State.loadText, parseWordLines_map_renderWord]

/-! ### Register operands -/

/-- A register operand is numeric text with a register's number (R78). -/
theorem registerOperand_eq_ok_iff {t : Token} {r : Reg} : registerOperand t = .ok r ↔ parseNat t = some r.val := by
  unfold registerOperand
  split
  · next n hn =>
    rw [hn, Option.some_inj]
    split
    · next hlt => rw [Except.ok.injEq, Fin.ext_iff]
    · next hge => exact iff_of_false (by simp) fun e => hge (e ▸ r.isLt)
  · next hn => simp [hn]

/-- The one error of a register operand. -/
theorem registerOperand_cases (t : Token) :
    (∃ r, registerOperand t = .ok r) ∨ registerOperand t = .error (.malformedOperand t) := by
  unfold registerOperand
  split
  · split
    · exact .inl ⟨_, rfl⟩
    · exact .inr rfl
  · exact .inr rfl

/-- Settles O53: the digits are `parseNat`'s, and the bound is the type's. -/
theorem registerOperandsAreDigitsUpToSeven : Obligations.RegisterOperandsAreDigitsUpToSeven := by
  intro t
  refine ⟨fun r => registerOperand_eq_ok_iff.trans parseNat_eq_some_iff, fun hnone => ?_⟩
  exact (registerOperand_cases t).resolve_left fun ⟨r, hr⟩ => hnone r hr

end Sys2Proof.Machine
end

section
/-! PROOFS. The assembler (R68 to R81): pass 1 label by label, pass 2 line by line, and what one line's operands give. -/

namespace Sys2Proof.Machine

/-! ### Pass 1 -/

/-- All a line can do in a pass 1 that succeeds (R76): carry no label, or enter a new, well-formed one. -/
theorem collectLabels_cons_ok {addr : Nat} {syms out : Symbols} {line : SourceLine} {rest : List SourceLine}
    (h : collectLabels addr syms (line :: rest) = .ok out) :
    (line.label = none ∧ collectLabels (addr + 1) syms rest = .ok out) ∨
    (∃ l, line.label = some l ∧ labelOk l = true ∧ syms.lookup l = none ∧
      collectLabels (addr + 1) (syms ++ [(l, addr)]) rest = .ok out) := by
  rw [collectLabels] at h
  split at h
  · next hl => exact .inl ⟨hl, h⟩
  · next l hl =>
    split at h
    · next hok =>
      obtain ⟨hlabel, hnew⟩ := Bool.and_eq_true_iff.1 hok
      exact .inr ⟨l, hl, hlabel, Option.isNone_iff_eq_none.1 hnew, h⟩
    · cases h

/-- What every entered label keeps holds of the table that pass 1 answers. -/
theorem collectLabels_keeps {P : Symbols → Prop}
    (hP : ∀ syms l a, P syms → labelOk l = true → syms.lookup l = none → P (syms ++ [(l, a)]))
    {addr : Nat} {syms out : Symbols} {lines : List SourceLine} (h0 : P syms)
    (h : collectLabels addr syms lines = .ok out) : P out := by
  induction lines generalizing addr syms with
  | nil =>
    cases h
    exact h0
  | cons line rest ih =>
    obtain ⟨-, hrest⟩ | ⟨l, -, hlabel, hnew, hrest⟩ := collectLabels_cons_ok h
    · exact ih h0 hrest
    · exact ih (hP syms l addr h0 hlabel hnew) hrest

/-- A label that is not found is not in the table. -/
theorem not_mem_of_lookup_eq_none {β : Type} {table : List (Token × β)} {l : Token} (h : table.lookup l = none) :
    l ∉ table.map Prod.fst := by
  intro hmem
  obtain ⟨p, hp, rfl⟩ := List.mem_map.1 hmem
  simpa using List.lookup_eq_none_iff.1 h p hp

/-- No label is entered twice (R76). -/
theorem collectLabels_nodup {addr : Nat} {out : Symbols} {lines : List SourceLine}
    (h : collectLabels addr [] lines = .ok out) : (out.map Prod.fst).Nodup := by
  refine collectLabels_keeps (P := fun syms => (syms.map Prod.fst).Nodup) (fun syms l a hnodup _ hnew => ?_)
    (by simp) h
  rw [List.map_append]
  exact hnodup.append (List.nodup_singleton l) (by simpa using not_mem_of_lookup_eq_none hnew)

/-- Every label entered is well-formed (R76). -/
theorem collectLabels_labelOk {addr : Nat} {out : Symbols} {lines : List SourceLine}
    (h : collectLabels addr [] lines = .ok out) : ∀ p ∈ out, labelOk p.1 = true := by
  refine collectLabels_keeps (P := fun syms => ∀ p ∈ syms, labelOk p.1 = true) (fun syms l a hall hlabel _ => ?_)
    (by simp) h
  intro p hp
  obtain hp | hp := List.mem_append.1 hp
  · exact hall p hp
  · rw [List.mem_singleton.1 hp]
    exact hlabel

/-- A label of the answered table was there before, or has the address of the line that carries it (R77). -/
theorem mem_collectLabels_iff {addr : Nat} {syms out : Symbols} {lines : List SourceLine}
    (h : collectLabels addr syms lines = .ok out) (l : Token) (a : Nat) :
    (l, a) ∈ out ↔ (l, a) ∈ syms ∨ ∃ k line, lines[k]? = some line ∧ line.label = some l ∧ a = addr + k := by
  induction lines generalizing addr syms with
  | nil =>
    cases h
    simp
  | cons line rest ih =>
    have hsplit : (∃ k line', (line :: rest)[k]? = some line' ∧ line'.label = some l ∧ a = addr + k) ↔
        (line.label = some l ∧ a = addr) ∨
        ∃ k line', rest[k]? = some line' ∧ line'.label = some l ∧ a = addr + 1 + k := by
      rw [← Nat.or_exists_add_one]
      simp [Nat.add_assoc, Nat.add_comm 1]
    obtain ⟨hnone, hrest⟩ | ⟨l', hl', -, -, hrest⟩ := collectLabels_cons_ok h
    · rw [ih hrest, hsplit, hnone]
      simp
    · rw [ih hrest, hsplit, hl', List.mem_append, List.mem_singleton, Prod.mk.injEq, Option.some_inj, or_assoc,
        eq_comm (a := l)]

/-- What a well-formed label is (R76). -/
theorem labelOk_spec {l : Token} (h : labelOk l = true) :
    l.length ≤ 6 ∧ ∃ c cs, l = c :: cs ∧ c.isAlpha = true ∧ ∀ d ∈ cs, d.isAlpha = true ∨ d.isDigit = true := by
  cases l with
  | nil => cases h
  | cons c cs =>
    simp only [labelOk, Bool.and_eq_true, List.all_eq_true, decide_eq_true_eq, Char.isAlphanum, Bool.or_eq_true] at h
    obtain ⟨⟨hfirst, hrest⟩, hlength⟩ := h
    exact ⟨hlength, c, cs, rfl, hfirst, hrest⟩

/-- Settles O55: each part is what one label's entry keeps. -/
theorem labelsAreUniqueAndAddressTheirLines : Obligations.LabelsAreUniqueAndAddressTheirLines := by
  intro lines syms h
  refine ⟨collectLabels_nodup h, fun l a => ?_, fun l a hla => labelOk_spec (collectLabels_labelOk h _ hla)⟩
  rw [mem_collectLabels_iff h]
  simp

/-! ### Pass 2 -/

/-- A sequence of two fallible parts succeeds exactly when both do. -/
theorem except_bind_eq_ok_iff {ε α β : Type} {x : Except ε α} {f : α → Except ε β} {b : β} :
    (x >>= f) = .ok b ↔ ∃ a, x = .ok a ∧ f a = .ok b := by
  cases x <;> simp [bind, Except.bind]

/-- A pass 2 that succeeds gives each line's word in order (R77). -/
theorem emitLines_ok {syms : Symbols} {addr : Nat} {lines : List SourceLine} {ws : List Word}
    (h : emitLines syms addr lines = .ok ws) :
    ws.length = lines.length ∧
    ∀ k line w, lines[k]? = some line → ws[k]? = some w → emitLine syms (addr + k) line = .ok w := by
  induction lines generalizing addr ws with
  | nil =>
    cases h
    simp
  | cons line rest ih =>
    rw [emitLines, except_bind_eq_ok_iff] at h
    obtain ⟨w, hw, h⟩ := h
    obtain ⟨ws', hws', hcons⟩ := except_bind_eq_ok_iff.1 h
    cases hcons
    obtain ⟨hlength, hwords⟩ := ih hws'
    refine ⟨congrArg Nat.succ hlength, fun k line' w' hline hword => ?_⟩
    cases k with
    | zero =>
      cases hline
      cases hword
      exact hw
    | succ k =>
      rw [Nat.add_comm k 1, ← Nat.add_assoc]
      exact hwords k line' w' hline hword

/-- An assembly that succeeds is its two passes (R71, R77). -/
theorem assembleWith_ok {maxLine : Nat} {source : List Text} {ws : List Word} (h : assembleWith maxLine source = .ok ws) :
    ∃ syms, collectLabels 0 [] (source.filterMap parseLine) = .ok syms ∧
      emitLines syms 0 (source.filterMap parseLine) = .ok ws := by
  unfold assembleWith at h
  split at h
  · cases h
  · exact except_bind_eq_ok_iff.1 h

/-- Settles O56, line by line of pass 2. -/
theorem oneWordPerNonBlankLine : Obligations.OneWordPerNonBlankLine := by
  intro maxLine source ws h
  obtain ⟨syms, hsyms, hws⟩ := assembleWith_ok h
  obtain ⟨hlength, hwords⟩ := emitLines_ok hws
  refine ⟨hlength, syms, hsyms, fun k line w hline hword => ?_⟩
  rw [← Nat.zero_add k]
  exact hwords k line w hline hword

/-! ### The operands of one line -/

section
variable {syms : Symbols} {A : Nat} {label : Option Token} {m x y l : Token} {ops : List Token} {v : Int}

/-- A line whose mnemonic is in the table gives what its operand list gives (R75, R80). -/
theorem emitLine_of_lookup {form : OperandForm} (h : mnemonicTable.lookup m = some form) :
    emitLine syms A ⟨label, m, ops⟩ = emitForm syms A form ops := by
  rw [emitLine, h]

/-- The value of an address operand: a literal, or what a label's address is turned into (R79). -/
theorem addressOperand_of_value (ofSymbol : Nat → Int)
    (h : parseInt l = some v ∨ parseInt l = none ∧ ∃ T, syms.lookup l = some T ∧ v = ofSymbol T) :
    addressOperand syms ofSymbol l = .ok v := by
  obtain hv | ⟨hnone, T, hT, rfl⟩ := h
  · rw [addressOperand, hv]
  · rw [addressOperand, hnone, hT]

/-- A text that is neither a literal nor a label is an undefined symbol (R79). -/
theorem addressOperand_undefined (ofSymbol : Nat → Int) (hnone : parseInt l = none) (hundef : syms.lookup l = none) :
    addressOperand syms ofSymbol l = .error (.undefinedSymbol l) := by
  rw [addressOperand, hnone, hundef]

/-- With registers for its first two operands, a line `reg reg addr` comes down to its address operand. -/
theorem emitForm_regRegAbsolute {a b : Reg} (mk : Reg → Reg → Int → Instr) (hx : registerOperand x = .ok a)
    (hy : registerOperand y = .ok b) :
    emitForm syms A (.regRegAbsolute mk) [x, y, l] =
      addressOperand syms (fun T => (T : Int)) l >>= fun v => emitInstr (mk a b v) := by
  rw [emitForm, hx, hy]
  rfl

theorem emitForm_regRegRelative {a b : Reg} (mk : Reg → Reg → Int → Instr) (hx : registerOperand x = .ok a)
    (hy : registerOperand y = .ok b) :
    emitForm syms A (.regRegRelative mk) [x, y, l] =
      addressOperand syms (fun T => relativeOffset T A) l >>= fun v => emitInstr (mk a b v) := by
  rw [emitForm, hx, hy]
  rfl

end

/-- Settles O51: the third operand's value goes to the encoder as it is. -/
theorem loadStoreSymbolsAreAbsolute : Obligations.LoadStoreSymbolsAreAbsolute := by
  intro syms A a b x y l label v hx hy hl
  have hv := addressOperand_of_value (fun T => (T : Int)) hl
  constructor
  · rw [emitLine_of_lookup (form := .regRegAbsolute .lw) rfl, emitForm_regRegAbsolute _ hx hy, hv]
    rfl
  · rw [emitLine_of_lookup (form := .regRegAbsolute .sw) rfl, emitForm_regRegAbsolute _ hx hy, hv]
    rfl

/-- A value is filled in when a word holds it, and refused when none does (R70, D23). -/
theorem emitFill_cases (v : Int) :
    ((-2147483648 ≤ v ∧ v ≤ 2147483647) ∧ emitFill v = .ok (wrap v)) ∨
    (¬ (-2147483648 ≤ v ∧ v ≤ 2147483647) ∧ emitFill v = .error (.rangeError v)) := by
  rw [← fitsWord_iff, emitFill]
  by_cases h : fitsWord v = true
  · exact .inl ⟨h, if_pos h⟩
  · exact .inr ⟨h, if_neg h⟩

/-- Settles O52: the operand's value, and then the two cases of `emitFill`. -/
theorem fillIsVerbatim : Obligations.FillIsVerbatim := by
  intro syms A l label v hl
  have hline : emitLine syms A ⟨label, ['.', 'f', 'i', 'l', 'l'], [l]⟩ = emitFill v := by
    rw [emitLine_of_lookup (form := .fill) rfl, emitForm, addressOperand_of_value (fun T => (T : Int)) hl]
    rfl
  rw [hline]
  obtain ⟨hin, hfill⟩ | ⟨hout, hfill⟩ := emitFill_cases v
  · exact ⟨fun h1 h2 => ⟨wrap v, hfill, sval_wrap h1 (by omega)⟩, fun h => by omega⟩
  · exact ⟨fun h1 h2 => absurd ⟨h1, h2⟩ hout, fun _ => hfill⟩

/-- A mnemonic outside the table is not found in it (R75). -/
theorem mnemonicTable_lookup_eq_none {m : Token} (h : m ∉ mnemonicTable.map Prod.fst) :
    mnemonicTable.lookup m = none := by
  rw [List.lookup_eq_none_iff]
  intro p hp
  rw [bne_iff_ne]
  rintro rfl
  exact h (List.mem_map_of_mem hp)

/-- Settles O54: the line's operands come down to the undefined one. -/
theorem unknownNamesAreReported : Obligations.UnknownNamesAreReported := by
  intro syms A label m l ops
  refine ⟨fun hm => ?_, fun hnone hundef => ?_⟩
  · rw [emitLine, mnemonicTable_lookup_eq_none hm]
  have herr := fun ofSymbol => addressOperand_undefined ofSymbol hnone hundef
  refine ⟨?_, ?_, fun a b x y hx hy => ?_⟩
  · rw [emitLine_of_lookup (form := .relative .je) rfl, emitForm, herr]
    rfl
  · rw [emitLine_of_lookup (form := .fill) rfl, emitForm, herr]
    rfl
  have habsolute : ∀ mk, emitForm syms A (.regRegAbsolute mk) [x, y, l] = .error (.undefinedSymbol l) := fun mk => by
    rw [emitForm_regRegAbsolute mk hx hy, herr]
    rfl
  have hrelative : ∀ mk, emitForm syms A (.regRegRelative mk) [x, y, l] = .error (.undefinedSymbol l) := fun mk => by
    rw [emitForm_regRegRelative mk hx hy, herr]
    rfl
  exact ⟨(emitLine_of_lookup rfl).trans (habsolute .lw), (emitLine_of_lookup rfl).trans (habsolute .sw),
    (emitLine_of_lookup rfl).trans (hrelative .beq), (emitLine_of_lookup rfl).trans (hrelative .jma),
    (emitLine_of_lookup rfl).trans (hrelative .jmne)⟩

end Sys2Proof.Machine
end

section
/-! PROOFS. From a branch's source line to where it lands (S5): the assembled offset, the field that holds it, and the
target that the fetched instruction computes from it. -/

namespace Sys2Proof.Machine

/-- The instructions of one branch mnemonic and its registers: an encoded one decodes to one of them, with the offset that
the field holds. -/
structure BranchForm (mk : Int → Instr) : Prop where
  offset_eq : ∀ v, (mk v).offset? = some v
  decode_encode : ∀ v, decode (encode (mk v)) = .ok (mk (sext15 (maskOffset v)))

theorem BranchForm.beq (a b : Reg) : BranchForm (.beq a b) where
  offset_eq _ := rfl
  decode_encode v := by rw [Sys2Proof.decode_encode, decodeFields_encode]; rfl

theorem BranchForm.jma (a b : Reg) : BranchForm (.jma a b) where
  offset_eq _ := rfl
  decode_encode v := by rw [Sys2Proof.decode_encode, decodeFields_encode]; rfl

theorem BranchForm.jmne (a b : Reg) : BranchForm (.jmne a b) where
  offset_eq _ := rfl
  decode_encode v := by rw [Sys2Proof.decode_encode, decodeFields_encode]; rfl

theorem BranchForm.je : BranchForm .je where
  offset_eq _ := rfl
  decode_encode v := by rw [Sys2Proof.decode_encode, decodeFields_encode]; rfl

/-- In the state `s` these branches are taken: they raise no fault and pc becomes the target (R107). -/
def Taken (s : State) (mk : Int → Instr) : Prop :=
  ∀ off, bodyFault (mk off) s = none ∧ (effectOf (mk off) s.advance).pc = s.advance.branchTarget off

/-- A branch goes to its target when its condition holds. -/
theorem State.branchIf_pc_of_true (t : State) {c : Bool} (h : c = true) (off : Int) :
    (t.branchIf c off).pc = t.branchTarget off := by
  rw [h]
  rfl

theorem taken_beq {s : State} {a b : Reg} (h : s.getReg a = s.getReg b) : Taken s (.beq a b) :=
  fun off => ⟨rfl, s.advance.branchIf_pc_of_true (decide_eq_true h) off⟩

theorem taken_jma {s : State} {a b : Reg} (h : (s.getReg b).toNat < (s.getReg a).toNat) : Taken s (.jma a b) :=
  fun off => ⟨rfl, s.advance.branchIf_pc_of_true (decide_eq_true h) off⟩

theorem taken_je {s : State} (h : s.z = true) : Taken s .je :=
  fun off => ⟨rfl, s.advance.branchIf_pc_of_true h off⟩

/-- The two pops come first and leave pc alone (R114). -/
theorem taken_jmne {s : State} (a b : Reg) (hsp : s.sp ≤ 30) (h : s.getStk s.sp ≠ s.getStk (s.sp + 1)) :
    Taken s (.jmne a b) :=
  fun off => ⟨if_neg (by omega), (s.advance.setSp (s.sp + 2)).branchIf_pc_of_true (decide_eq_true h) off⟩

/-- From a fetched instruction a target does not wrap (R18, R107). -/
theorem State.sval_branchTarget {s : State} {off : Int} (h0 : 0 ≤ sval s.pc) (h4096 : sval s.pc < 4096)
    (h1 : -16384 ≤ off) (h2 : off ≤ 16383) : sval (s.advance.branchTarget off) = sval s.pc + 1 + off := by
  have hnext : sval s.advance.pc = sval s.pc + 1 := State.sval_advance_pc (by omega)
  rw [State.branchTarget, hnext]
  exact sval_wrap (by omega) (by omega)

/-- An emitted instruction is encoded, its offset within the encoder's range (R65). -/
theorem emitInstr_ok {i : Instr} {v : Int} {w : Word} (hv : i.offset? = some v) (h : emitInstr i = .ok w) :
    w = encode i ∧ -16384 ≤ v ∧ v ≤ 16384 := by
  have henc : encodeChecked i = _ := encodeCheckedWith_of_offset 16384 hv
  rw [emitInstr, henc] at h
  by_cases hrange : -16384 ≤ v ∧ v ≤ 16384
  · rw [if_pos hrange] at h
    cases h
    exact ⟨rfl, hrange⟩
  · rw [if_neg hrange] at h
    cases h

/-- Where a branch lands is what its offset field says, the collision of R67 included. -/
theorem landing_eq {A T : Nat} (h1 : -16384 ≤ relativeOffset T A) (h2 : relativeOffset T A ≤ 16384) :
    landing A T = A + 1 + sext15 (maskOffset (relativeOffset T A)) := by
  rw [sext15_maskOffset_of_accepted h1 h2, landing]
  simp only [relativeOffset]
  split_ifs <;> omega

/-- A branch assembled at `A` for the label's address `T`, fetched at `A` and taken, lands as `landing` says. -/
theorem BranchForm.step_lands {mk : Int → Instr} {s : State} {w : Word} {A T : Nat} (hform : BranchForm mk)
    (hemit : emitInstr (mk (relativeOffset T A)) = .ok w) (hfetch : Fetches s w) (hpc : sval s.pc = A)
    (htaken : Taken s mk) : ∃ t, step s = .next t ∧ sval t.pc = landing A T := by
  obtain ⟨rfl, hlow, hhigh⟩ := emitInstr_ok (hform.offset_eq _) hemit
  obtain ⟨hok, htarget⟩ := htaken (sext15 (maskOffset (relativeOffset T A)))
  obtain ⟨hoff1, hoff2⟩ := sext15_range (maskOffset_lt (relativeOffset T A))
  refine ⟨_, (hfetch.step_eq_exec (hform.decode_encode _)).trans (exec_of_no_fault hok), ?_⟩
  obtain ⟨-, h0, h4096, -⟩ := hfetch
  rw [State.complete_pc, htarget, State.sval_branchTarget h0 h4096 hoff1 hoff2, hpc, landing_eq hlow hhigh]

/-- An assembled `reg reg addr` line with a symbolic target has its registers and the relative offset (R68). -/
theorem emitForm_regRegRelative_ok {syms : Symbols} {A T : Nat} {x y l : Token} {w : Word} (mk : Reg → Reg → Int → Instr)
    (hnone : parseInt l = none) (hT : syms.lookup l = some T)
    (h : emitForm syms A (.regRegRelative mk) [x, y, l] = .ok w) :
    ∃ a b, registerOperand x = .ok a ∧ registerOperand y = .ok b ∧ emitInstr (mk a b (relativeOffset T A)) = .ok w := by
  obtain ⟨a, ha, h⟩ := except_bind_eq_ok_iff.1 h
  obtain ⟨b, hb, h⟩ := except_bind_eq_ok_iff.1 h
  obtain ⟨v, hv, h⟩ := except_bind_eq_ok_iff.1 h
  rw [addressOperand_of_value _ (.inr ⟨hnone, T, hT, rfl⟩)] at hv
  cases hv
  exact ⟨a, b, ha, hb, h⟩

/-- An assembled `addr` line with a symbolic target has the relative offset (R68). -/
theorem emitForm_relative_ok {syms : Symbols} {A T : Nat} {l : Token} {w : Word} (mk : Int → Instr)
    (hnone : parseInt l = none) (hT : syms.lookup l = some T) (h : emitForm syms A (.relative mk) [l] = .ok w) :
    emitInstr (mk (relativeOffset T A)) = .ok w := by
  obtain ⟨v, hv, h⟩ := except_bind_eq_ok_iff.1 h
  rw [addressOperand_of_value _ (.inr ⟨hnone, T, hT, rfl⟩)] at hv
  cases hv
  exact h

/-- Settles O50: each line is a `BranchForm`, and the condition is what takes it. -/
theorem assembledBranchReachesItsLabel : Obligations.AssembledBranchReachesItsLabel := by
  intro syms A T x y l label w s hT hnone hpc hfetch
  refine ⟨fun h => ?_, fun h => ?_, fun h hsp hne => ?_, fun h hz => ?_⟩
  · rw [emitLine_of_lookup (form := .regRegRelative .beq) rfl] at h
    obtain ⟨a, b, ha, hb, hemit⟩ := emitForm_regRegRelative_ok .beq hnone hT h
    exact ⟨a, b, ha, hb, fun heq => (BranchForm.beq a b).step_lands hemit hfetch hpc (taken_beq heq)⟩
  · rw [emitLine_of_lookup (form := .regRegRelative .jma) rfl] at h
    obtain ⟨a, b, ha, hb, hemit⟩ := emitForm_regRegRelative_ok .jma hnone hT h
    exact ⟨a, b, ha, hb, fun hlt => (BranchForm.jma a b).step_lands hemit hfetch hpc (taken_jma hlt)⟩
  · rw [emitLine_of_lookup (form := .regRegRelative .jmne) rfl] at h
    obtain ⟨a, b, -, -, hemit⟩ := emitForm_regRegRelative_ok .jmne hnone hT h
    exact (BranchForm.jmne a b).step_lands hemit hfetch hpc (taken_jmne a b hsp hne)
  · rw [emitLine_of_lookup (form := .relative .je) rfl] at h
    exact BranchForm.je.step_lands (emitForm_relative_ok .je hnone hT h) hfetch hpc (taken_je hz)

end Sys2Proof.Machine
end

section
/-! PROOFS. The step of R83 to R93: which instruction it runs, and what it keeps when it faults, completes or is asked for
outside RUNNING. -/

namespace Sys2Proof.Machine

/-- An instruction that completes from RUNNING leaves it only by HALT (R89). -/
theorem effectOf_complete_status (i : Instr) {s : State} (hrun : s.status = .running) :
    (effectOf i s.advance).complete.status = if i = .halt then .halted else .running := by
  rw [State.complete_status, effectOf_status, State.advance_status, hrun]

theorem effectOf_complete_not_faulted (i : Instr) {s : State} (hrun : s.status = .running) :
    (effectOf i s.advance).complete.status ≠ .faulted := by
  rw [effectOf_complete_status i hrun]
  split <;> simp

/-- A step that becomes FAULTED took a fault, in the fetch or in the body alike (R90). -/
theorem eq_takeFault_of_step {s t : State} (hrun : s.status = .running) (hstep : step s = .next t)
    (hfault : t.status = .faulted) : ∃ c, c ≠ .none ∧ t = s.takeFault c := by
  obtain ⟨hidle, -⟩ | ⟨-, c, hc, hs⟩ | ⟨-, i, -, -, hs⟩ := step_cases s
  · exact absurd hrun hidle
  · exact ⟨c, hc, Host.Outcome.next.inj (hstep.symm.trans hs)⟩
  · obtain rfl := Host.Outcome.next.inj (hstep.symm.trans hs)
    exact absurd hfault (effectOf_complete_not_faulted i hrun)

/-- A step that completes is the fetched instruction's effect (R89). -/
theorem eq_complete_of_step {s t : State} {i : Instr} (hrun : s.status = .running) (hfetch : s.fetchInstr = .ok i)
    (hstep : step s = .next t) (hok : t.status ≠ .faulted) : t = (effectOf i s.advance).complete := by
  obtain ⟨hidle, -⟩ | ⟨-, c, -, hs⟩ | ⟨-, j, hj, -, hs⟩ := step_cases s
  · exact absurd hrun hidle
  · obtain rfl := Host.Outcome.next.inj (hstep.symm.trans hs)
    exact absurd rfl hok
  · obtain rfl := Except.ok.inj (hfetch.symm.trans hj)
    exact Host.Outcome.next.inj (hstep.symm.trans hs)

/-- The PC check comes before the fetch (R84). -/
theorem step_of_bad_pc {s : State} (hrun : s.status = .running) (hpc : ¬ (0 ≤ sval s.pc ∧ sval s.pc < 4096)) :
    step s = .next (s.takeFault .badPc) := by
  have hfetch : s.fetch = .error .badPc := (s.fetch_cases.resolve_left fun hin => hpc hin.1).2
  have hinstr : s.fetchInstr = .error .badPc := by rw [State.fetchInstr, hfetch]
  rw [step_of_running hrun, cycle, hinstr]

/-- Settles O8: the word at pc is the one fetched and decoded. -/
theorem stepRunsTheDecodedInstruction : Obligations.StepRunsTheDecodedInstruction :=
  fun _ _ _ hfetch hdecode _ => hfetch.step_eq_exec hdecode

/-- Settles O10: either side of the range fails the PC check. -/
theorem badPcFaultsBeforeTheFetch : Obligations.BadPcFaultsBeforeTheFetch :=
  fun _ hrun hout => step_of_bad_pc hrun (by omega)

/-- Settles O11: every step of the run answers the state it was asked from. -/
theorem nothingHappensOutsideRunning : Obligations.NothingHappensOutsideRunning :=
  fun _ k hidle => core_run_of_not_running hidle k

/-- Settles O12, by the three things a step can do. -/
theorem everyStepAnswersANextState : Obligations.EveryStepAnswersANextState :=
  step_total

/-- Settles O13: `takeFault` is the whole of a faulting step. -/
theorem faultingStepKeepsNothing : Obligations.FaultingStepKeepsNothing := by
  intro s t hrun hstep hfault
  obtain ⟨c, hc, rfl⟩ := eq_takeFault_of_step hrun hstep hfault
  exact ⟨hc, rfl⟩

/-- Settles O14: `complete` forces r0 and counts, and only HALT's effect writes the status. -/
theorem completedStepForcesR0AndCounts : Obligations.CompletedStepForcesR0AndCounts := by
  intro s t i hrun hfetch hstep hok
  obtain rfl := eq_complete_of_step hrun hfetch hstep hok
  refine ⟨State.getReg_complete_zero _, by simp, by simp, by simp, ?_⟩
  rw [effectOf_complete_status i hrun]
  by_cases hi : i = .halt <;> simp [hi]

end Sys2Proof.Machine
end

section
/-! PROOFS. The register family of 41_alu.md: a frame shared by its eight instructions, and what each of them leaves in
its destinations. -/

namespace Sys2Proof.Machine

/-! ### What every completed instruction leaves -/

/-- An effect that is completed is one more completed instruction (R88, R89). -/
theorem completed_effectOf (i : Instr) (s : State) : Completed s (effectOf i s.advance).complete where
  r0_zero := State.getReg_complete_zero _
  count_eq := by simp
  cause_eq := by simp
  faddr_eq := by simp

/-- A register other than r0 ends an instruction with what the instruction wrote to it last. -/
theorem State.getReg_complete_setReg (t : State) {r : Reg} (h : r ≠ 0) (v : Word) :
    (t.setReg r v).complete.getReg r = v := by
  rw [State.complete_setReg_ne t h, State.getReg_setReg_self]

/-! ### The frame of the register family -/

/-- The eight instructions of the register family (41_alu.md). -/
inductive AluInstr : Instr → Prop where
  | add (a0 a1 a2 : Reg) : AluInstr (.add a0 a1 a2)
  | nand (a0 a1 a2 : Reg) : AluInstr (.nand a0 a1 a2)
  | dec (a0 : Reg) : AluInstr (.dec a0)
  | xadd (a0 a1 a2 : Reg) : AluInstr (.xadd a0 a1 a2)
  | shl (a0 a1 a2 : Reg) : AluInstr (.shl a0 a1 a2)
  | or (a0 a1 a2 : Reg) : AluInstr (.or a0 a1 a2)
  | cmp (a0 a1 : Reg) : AluInstr (.cmp a0 a1)
  | bsr (a0 a1 : Reg) : AluInstr (.bsr a0 a1)

/-- `i` takes `s` to `t` as every instruction of the register family does: it completes, goes on to the next word, and
touches neither the stack, nor memory, nor the status, nor a register it does not write. -/
structure AluRuns (i : Instr) (s t : State) : Prop where
  exec_eq : exec i s = .next t
  completed : Completed s t
  pc_eq : t.pc = s.pc + 1
  regs_kept : RegsKeptBut (writtenRegs i) s t
  stack_kept : StackKept s t
  mem_kept : MemKept s t
  status_eq : t.status = s.status

/-- None of the family faults, and the effect of each is made of writes of registers and Z alone. -/
theorem AluInstr.runs {i : Instr} (hi : AluInstr i) (s : State) : AluRuns i s (effectOf i s.advance).complete := by
  have hfault : bodyFault i s = none := by cases hi <;> rfl
  have hexec : exec i s = .next (effectOf i s.advance).complete := exec_of_no_fault hfault
  have hpc : (effectOf i s.advance).pc = s.advance.pc := by cases hi <;> rfl
  have hsp : (effectOf i s.advance).sp = s.sp := by cases hi <;> rfl
  have hstk : (effectOf i s.advance).stk = s.stk := by cases hi <;> rfl
  have hmem : (effectOf i s.advance).mem = s.mem := by cases hi <;> rfl
  have hstatus : (effectOf i s.advance).status = s.status := by cases hi <;> rfl
  exact {
    exec_eq := hexec
    completed := completed_effectOf i s
    pc_eq := hpc.trans s.advance_pc
    regs_kept := registersOutsideTheTableAreKept i s _ hexec
    stack_kept := ⟨hsp, fun j => by simp only [State.getStk, State.complete_stk, hstk]⟩
    mem_kept := fun a => congrArg (Memory.read · a) hmem
    status_eq := hstatus }

/-! ### One destination: ADD, NAND, DEC, SHL, OR -/

/-- Settles O16: bit by bit, by what the two operations are on words. -/
theorem nandAndOrAreBitwise : Obligations.NandAndOrAreBitwise := by
  intro a0 a1 a2 s
  have hnand := (AluInstr.nand a0 a1 a2).runs s
  have hor := (AluInstr.or a0 a1 a2).runs s
  refine ⟨⟨_, hnand.exec_eq, hnand.completed, hnand.pc_eq, fun h0 k hk => ?_, hnand.regs_kept, rfl, hnand.stack_kept,
      hnand.mem_kept, hnand.status_eq⟩,
    ⟨_, hor.exec_eq, hor.completed, hor.pc_eq, fun h0 k hk => ?_, hor.regs_kept, rfl, hor.stack_kept,
      hor.mem_kept, hor.status_eq⟩⟩
  · rw [effectOf, State.getReg_complete_setReg _ h0]
    simp [nandW, hk]
  · rw [effectOf, State.getReg_complete_setReg _ h0]
    simp [orW]

/-- Settles O17: wrapped addition and subtraction of signed values are those of the words (D4). -/
theorem addAndDecWrap : Obligations.AddAndDecWrap := by
  constructor
  · intro a0 a1 a2 s
    have hadd := (AluInstr.add a0 a1 a2).runs s
    refine ⟨_, hadd.exec_eq, hadd.completed, hadd.pc_eq, fun h0 => ?_, hadd.regs_kept, rfl, hadd.stack_kept,
      hadd.mem_kept, hadd.status_eq⟩
    rw [effectOf, State.getReg_complete_setReg _ h0, addW_eq, BitVec.toNat_add]
    rfl
  · intro a0 s
    have hdec := (AluInstr.dec a0).runs s
    refine ⟨_, hdec.exec_eq, hdec.completed, hdec.pc_eq, fun h0 => ?_, hdec.regs_kept, rfl, hdec.stack_kept,
      hdec.mem_kept, hdec.status_eq⟩
    rw [effectOf, State.getReg_complete_setReg _ h0, subW_eq, BitVec.toNat_sub, Nat.add_comm]
    rfl

/-- Settles O18: a shift is a multiplication by a power of two, and `shlW_eq` gives the amount's mask (D5). -/
theorem shlShiftsByTheLowFiveBits : Obligations.ShlShiftsByTheLowFiveBits := by
  intro a0 a1 a2 s
  have hshl := (AluInstr.shl a0 a1 a2).runs s
  refine ⟨_, hshl.exec_eq, hshl.completed, hshl.pc_eq, fun h0 => ?_, hshl.regs_kept, rfl, hshl.stack_kept,
    hshl.mem_kept, hshl.status_eq⟩
  rw [effectOf, State.getReg_complete_setReg _ h0, shlW_eq, BitVec.toNat_shiftLeft, Nat.shiftLeft_eq]
  rfl

/-! ### Z: CMP and BSR -/

/-- Settles O20: CMP writes no register, and its Z is equality (`cmpZ_eq`, D33). -/
theorem cmpSetsZOnEquality : Obligations.CmpSetsZOnEquality := by
  intro a0 a1 s
  have hcmp := (AluInstr.cmp a0 a1).runs s
  refine ⟨_, hcmp.exec_eq, hcmp.completed, hcmp.pc_eq, ?_, hcmp.regs_kept, hcmp.stack_kept, hcmp.mem_kept,
    hcmp.status_eq⟩
  simp [effectOf, cmpZ_eq]

/-- A scan that found a bit: the answer is its index, and no bit above it up to bit 23 is set (R104). -/
theorem bsrResult_of_some {v : Word} {j : Nat} (h : bsrScan v = some j) :
    (bsrResult v).toNat = j ∧ j ≤ 23 ∧ v.getLsbD j = true ∧ ∀ k, j < k → k ≤ 23 → v.getLsbD k = false := by
  obtain ⟨hj, hset, habove⟩ := highestBitBelow_some h
  have hj23 : j ≤ 23 := Nat.le_of_lt_succ hj
  refine ⟨?_, hj23, hset, fun k hk hk23 => habove k hk (Nat.lt_succ_of_le hk23)⟩
  simp only [bsrResult, h, BitVec.toNat_ofNat, Config.two_pow_wordBits]
  omega

/-- A scan that found nothing: the answer is -1, and bits 23..0 are clear (R104). -/
theorem bsrResult_of_none {v : Word} (h : bsrScan v = none) :
    sval (bsrResult v) = -1 ∧ ∀ k, k ≤ 23 → v.getLsbD k = false := by
  refine ⟨?_, fun k hk => highestBitBelow_none h k (Nat.lt_succ_of_le hk)⟩
  simp only [bsrResult, h]
  rfl

/-- Settles O21: by whether the scan of R104 finds a bit. -/
theorem bsrFindsTheHighestOfBits23To0 : Obligations.BsrFindsTheHighestOfBits23To0 := by
  intro a0 a1 s
  have hbsr := (AluInstr.bsr a0 a1).runs s
  have hz : (effectOf (.bsr a0 a1) s.advance).complete.z = (bsrScan (s.getReg a0)).isSome := rfl
  have hreg : a1 ≠ 0 → (effectOf (.bsr a0 a1) s.advance).complete.getReg a1 = bsrResult (s.getReg a0) := fun h0 => by
    rw [effectOf, State.setZ_setReg, State.getReg_complete_setReg _ h0, State.getReg_advance]
  refine ⟨_, hbsr.exec_eq, hbsr.completed, hbsr.pc_eq, ?_, fun hfound h0 => ?_, fun hnone h0 => ?_, hbsr.regs_kept,
    hbsr.stack_kept, hbsr.mem_kept, hbsr.status_eq⟩
  · rw [hz]
    cases hscan : bsrScan (s.getReg a0) with
    | some j =>
      obtain ⟨-, hj, hset, -⟩ := bsrResult_of_some hscan
      exact iff_of_true rfl ⟨j, hj, hset⟩
    | none =>
      obtain ⟨-, hclear⟩ := bsrResult_of_none hscan
      exact iff_of_false Bool.false_ne_true fun ⟨j, hj, hset⟩ => Bool.false_ne_true ((hclear j hj).symm.trans hset)
  · obtain ⟨j, hscan⟩ := Option.isSome_iff_exists.1 (hz.symm.trans hfound)
    obtain ⟨hresult, hj, hset, habove⟩ := bsrResult_of_some hscan
    rw [hreg h0, hresult]
    exact ⟨hj, hset, habove⟩
  · have hscan := Option.isNone_iff_eq_none.1 (Option.isSome_eq_false_iff.1 (hz.symm.trans hnone))
    obtain ⟨hresult, -⟩ := bsrResult_of_none hscan
    rw [hreg h0, hresult]

/-! ### XADD -/

/-- XADD's working copy after the first three of its four writes (R100): `x[a2] <- x[a0]`, `x[a0] <- x[a1]`,
`x[a1] <- x[a2]`. With three different registers it has swapped `x[a0]` and `x[a1]`. -/
def xaddMoves (a0 a1 a2 : Reg) (t : State) : State :=
  let t1 := t.setReg a2 (t.getReg a0)
  let t2 := t1.setReg a0 (t1.getReg a1)
  t2.setReg a1 (t2.getReg a2)

/-- The fourth write adds what the moves left in the two sources. -/
theorem xaddBody_eq (a0 a1 a2 : Reg) (t : State) :
    xaddBody a0 a1 a2 t = (xaddMoves a0 a1 a2 t).setReg a2
      ((xaddMoves a0 a1 a2 t).getReg a0 + (xaddMoves a0 a1 a2 t).getReg a1) := by
  rw [← addW_eq]
  rfl

/-- The moves put `x[a1]` into `x[a0]`, unless the first of them has overwritten it with `x[a0]`. -/
theorem getReg_xaddMoves_arg0 (a0 a1 a2 : Reg) (t : State) :
    (xaddMoves a0 a1 a2 t).getReg a0 = if a2 = a1 then t.getReg a0 else t.getReg a1 := by
  by_cases h21 : a2 = a1
  · subst h21
    simp [xaddMoves, State.getReg_setReg]
  · by_cases h01 : a0 = a1
    · subst h01
      simp [xaddMoves, State.getReg_setReg, h21]
    · simp [xaddMoves, State.getReg_setReg, h01, h21, Ne.symm h21]

/-- The moves put `x[a0]`, kept in `x[a2]`, into `x[a1]`, unless the second has overwritten it with `x[a1]`. -/
theorem getReg_xaddMoves_arg1 (a0 a1 a2 : Reg) (t : State) :
    (xaddMoves a0 a1 a2 t).getReg a1 = if a2 = a0 then t.getReg a1 else t.getReg a0 := by
  by_cases h20 : a2 = a0
  · subst h20
    by_cases h12 : a1 = a2 <;> simp [xaddMoves, State.getReg_setReg, h12]
  · simp [xaddMoves, State.getReg_setReg, h20]

/-- The destination ends with the sum of the moved sources. -/
theorem getReg_xaddBody_arg2 (a0 a1 a2 : Reg) (t : State) :
    (xaddBody a0 a1 a2 t).getReg a2 =
      (if a2 = a1 then t.getReg a0 else t.getReg a1) + (if a2 = a0 then t.getReg a1 else t.getReg a0) := by
  rw [xaddBody_eq, State.getReg_setReg_self, getReg_xaddMoves_arg0, getReg_xaddMoves_arg1]

/-- The first source, where the sum does not overwrite it, stays as moved. -/
theorem getReg_xaddBody_arg0 {a0 a2 : Reg} (h : a2 ≠ a0) (a1 : Reg) (t : State) :
    (xaddBody a0 a1 a2 t).getReg a0 = if a2 = a1 then t.getReg a0 else t.getReg a1 := by
  rw [xaddBody_eq, State.getReg_setReg_ne _ _ _ _ h.symm, getReg_xaddMoves_arg0]

/-- The second source, where the sum does not overwrite it, stays as moved. -/
theorem getReg_xaddBody_arg1 {a1 a2 : Reg} (h : a2 ≠ a1) (a0 : Reg) (t : State) :
    (xaddBody a0 a1 a2 t).getReg a1 = if a2 = a0 then t.getReg a1 else t.getReg a0 := by
  rw [xaddBody_eq, State.getReg_setReg_ne _ _ _ _ h.symm, getReg_xaddMoves_arg1]

/-- Settles O19: each row of R100's table is what the moves leave in the sources, with the sum written over one of them
where `a2` names it. -/
theorem xaddByAliasing : Obligations.XaddByAliasing := by
  intro a0 a1 a2 s
  have hxadd := (AluInstr.xadd a0 a1 a2).runs s
  have hread (r : Reg) (h0 : r ≠ 0) :
      (effectOf (.xadd a0 a1 a2) s.advance).complete.getReg r = (xaddBody a0 a1 a2 s.advance).getReg r := by
    rw [State.getReg_complete, if_neg h0, effectOf]
  have hkept : RegsKeptBut [a0, a1, a2] s (effectOf (.xadd a0 a1 a2) s.advance).complete :=
    fun r h0 hr => hxadd.regs_kept r h0 fun hw => hr ((List.perm_append_comm (l₁ := [a2])).mem_iff.1 hw)
  refine ⟨_, hxadd.exec_eq, hxadd.completed, hxadd.pc_eq, ?_, hkept, rfl, hxadd.stack_kept, hxadd.mem_kept,
    hxadd.status_eq⟩
  have hsum (h0 : a2 ≠ 0) := (hread a2 h0).trans (getReg_xaddBody_arg2 a0 a1 a2 s.advance)
  have harg0 (h20 : a2 ≠ a0) (h0 : a0 ≠ 0) := (hread a0 h0).trans (getReg_xaddBody_arg0 h20 a1 s.advance)
  have harg1 (h21 : a2 ≠ a1) (h0 : a1 ≠ 0) := (hread a1 h0).trans (getReg_xaddBody_arg1 h21 a0 s.advance)
  split_ifs with h01 h20 h20 h21
  · subst h01 h20
    simpa using hsum
  · subst h01
    exact ⟨by simpa [h20] using harg0 h20, by simpa [h20] using hsum⟩
  · subst h20
    exact ⟨by simpa [h01] using hsum, by simpa using harg1 h01⟩
  · subst h21
    exact ⟨by simpa using harg0 h20, by simpa [h20] using hsum⟩
  · refine ⟨by simpa [h21] using harg0 h20, by simpa [h20] using harg1 h21, ?_⟩
    simpa [h20, h21, BitVec.add_comm] using hsum

end Sys2Proof.Machine
end

section
/-! PROOFS. LW and SW (42_loadstore.md): one bounds check on one exact address decides both, before anything is written. -/

namespace Sys2Proof.Machine

/-! ### The bounds check -/

/-- Advancing pc moves no effective address (R40): it depends on its base register only. -/
@[simp] theorem State.effectiveAddress_advance (s : State) (a : Reg) (off : Int) :
    s.advance.effectiveAddress a off = s.effectiveAddress a off :=
  State.effectiveAddress_congr (s.getReg_advance a) off

/-- LW checks the address that SW would check (R37, R40). -/
theorem bodyFault_lw_eq_sw (a0 a1 : Reg) (off : Int) (s : State) :
    bodyFault (.lw a0 a1 off) s = bodyFault (.sw a0 a1 off) s := rfl

/-- A store at an address outside memory faults (R37, R106). -/
theorem bodyFault_sw_of_outside {a0 : Reg} (a1 : Reg) {off : Int} {s : State}
    (h : s.effectiveAddress a0 off < 0 ∨ 4096 ≤ s.effectiveAddress a0 off) :
    bodyFault (.sw a0 a1 off) s = some .memOutOfRange :=
  if_neg fun hin => by
    obtain ⟨h0, h4096⟩ := (inMemory_iff _).1 hin
    omega

/-! ### The load -/

/-- A load leaves the word it read in its destination, unless that is r0 (R105, R88). -/
theorem getReg_effectOf_lw {a1 : Reg} (h : a1 ≠ 0) (a0 : Reg) (off : Int) (t : State) :
    (effectOf (.lw a0 a1 off) t).complete.getReg a1 = t.mem.read (t.effectiveAddress a0 off).toNat := by
  rw [effectOf, State.getReg_complete_setReg _ h]

/-- Settles O22: by the bounds check; a load that passes it writes its destination and nothing else. -/
theorem lwLoadsOrFaults : Obligations.LwLoadsOrFaults := by
  rintro a0 a1 off s ea rfl
  rw [State.effectiveAddress_advance]
  refine ⟨rfl, fun hin => ?_, fun hout => ?_⟩
  · have hok : bodyFault (.lw a0 a1 off) s = none := (bodyFault_lw_eq_sw ..).trans (bodyFault_sw_of_inMemory a1 hin)
    have hexec := exec_of_no_fault hok
    exact ⟨_, hexec, completed_effectOf _ s, s.advance_pc, fun h0 => getReg_effectOf_lw h0 a0 off s.advance,
      registersOutsideTheTableAreKept _ s _ hexec, rfl, ⟨rfl, fun _ => rfl⟩, fun _ => rfl, rfl⟩
  · have hfault : bodyFault (.lw a0 a1 off) s = some .memOutOfRange :=
      (bodyFault_lw_eq_sw ..).trans (bodyFault_sw_of_outside a1 hout)
    exact exec_of_fault hfault

/-! ### The store -/

/-- A store leaves every word but the one at its address (R39, R106). -/
theorem effectOf_sw_read_ne {a0 : Reg} (a1 : Reg) {off : Int} {t : State} {a : Nat}
    (h : a ≠ (t.effectiveAddress a0 off).toNat) : (effectOf (.sw a0 a1 off) t).mem.read a = t.mem.read a :=
  Memory.read_write_ne t.mem _ h

/-- Settles O23: by the bounds check; a store that passes it writes one word of memory and nothing else. -/
theorem swStoresOrFaults : Obligations.SwStoresOrFaults := by
  rintro a0 a1 off s ea hmem rfl
  rw [State.effectiveAddress_advance]
  refine ⟨rfl, fun hin => ?_, fun hout => ?_⟩
  · have hok : bodyFault (.sw a0 a1 off) s = none := bodyFault_sw_of_inMemory a1 hin
    have hok' : bodyFault (.sw a0 a1 off) s.advance = none := (bodyFault_advance _ s).trans hok
    have hexec := exec_of_no_fault hok
    exact ⟨_, hexec, completed_effectOf _ s, s.advance_pc, effectOf_sw_read_same (s := s.advance) a0 a1 off hmem,
      fun _ ha => effectOf_sw_read_ne (t := s.advance) a1 ha, effectOf_mem_wf hok' hmem,
      registersOutsideTheTableAreKept _ s _ hexec, rfl, ⟨rfl, fun _ => rfl⟩, rfl⟩
  · exact exec_of_fault (bodyFault_sw_of_outside a1 hout)

end Sys2Proof.Machine
end

section
/-! PROOFS. The control family of 43_control.md: the four PC-relative branches are one conditional addition to pc, JALR two
writes with the link first, and HALT and NOOP write no more than the status. -/

namespace Sys2Proof.Machine

/-! ### The four branches -/

/-- In the state `s` the instruction `i` raises no fault and is a PC-relative branch by `off` (R107) with condition `c`. -/
inductive BranchOn (s : State) (off : Int) : Instr → Bool → Prop where
  | beq (a0 a1 : Reg) : BranchOn s off (.beq a0 a1 off) (decide (s.getReg a0 = s.getReg a1))
  | jma (a0 a1 : Reg) : BranchOn s off (.jma a0 a1 off) ((s.getReg a1).ult (s.getReg a0))
  | je : BranchOn s off (.je off) s.z
  | jmne (a0 a1 : Reg) (hsp : s.sp ≤ 30) :
    BranchOn s off (.jmne a0 a1 off) (decide (s.getStk s.sp ≠ s.getStk (s.sp + 1)))

/-- `i` takes `s` to `t` as a branch by `off` with condition `c` does: it completes, and touches neither a register, nor Z,
nor a stack entry, nor memory, nor the status. Of the stack pointer it says nothing: JMNE moves it. -/
structure BranchRuns (i : Instr) (c : Bool) (off : Int) (s t : State) : Prop where
  exec_eq : exec i s = .next t
  completed : Completed s t
  pc_eq : t.pc = if c then s.pc + 1 + BitVec.ofInt 32 off else s.pc + 1
  regs_kept : RegsKeptBut [] s t
  z_eq : t.z = s.z
  entries_kept : ∀ j, t.getStk j = s.getStk j
  mem_kept : MemKept s t
  status_eq : t.status = s.status

section
variable {s : State} {off : Int} {i : Instr} {c : Bool} (h : BranchOn s off i c)
include h

theorem BranchOn.no_fault : bodyFault i s = none := by
  cases h with
  | jmne a0 a1 hsp => exact if_neg (by omega)
  | _ => rfl

/-- Each branch is `branchIf` on the advanced state, JMNE after its two pops. -/
theorem BranchOn.effectOf_eq : ∃ n, effectOf i s.advance = (s.advance.setSp n).branchIf c off := by
  cases h with
  | jmne => exact ⟨s.sp + 2, rfl⟩
  | _ => exact ⟨s.sp, rfl⟩

theorem BranchOn.runs : BranchRuns i c off s (effectOf i s.advance).complete := by
  have hexec : exec i s = .next (effectOf i s.advance).complete := exec_of_no_fault h.no_fault
  have hwrites : writtenRegs i = [] := by cases h <;> rfl
  have hregs := registersOutsideTheTableAreKept i s _ hexec
  rw [hwrites] at hregs
  obtain ⟨n, heffect⟩ := h.effectOf_eq
  exact {
    exec_eq := hexec
    completed := completed_effectOf i s
    pc_eq := by simp [heffect]
    regs_kept := hregs
    z_eq := by simp [heffect]
    entries_kept := by simp [heffect]
    mem_kept := fun a => by simp [heffect]
    status_eq := by simp [heffect] }

/-- R107: where its condition holds, a branch fetched from memory lands at A + 1 + off, with no wrap and no check. -/
theorem BranchOn.lands (hc : c = true) (h0 : 0 ≤ sval s.pc) (h4096 : sval s.pc < 4096) (hoff1 : -16384 ≤ off)
    (hoff2 : off ≤ 16383) : ∃ t, exec i s = .next t ∧ Completed s t ∧ t.status = s.status ∧
      sval t.pc = sval s.pc + 1 + off := by
  refine ⟨_, h.runs.exec_eq, h.runs.completed, h.runs.status_eq, ?_⟩
  rw [h.runs.pc_eq, if_pos hc, ← s.advance_pc, ← State.branchTarget_eq, State.sval_branchTarget h0 h4096 hoff1 hoff2]

/-- R107: where its condition does not hold, a branch fetched from memory goes on at A + 1. -/
theorem BranchOn.falls_through (hc : c = false) (h4096 : sval s.pc < 4096) :
    ∃ t, exec i s = .next t ∧ Completed s t ∧ t.status = s.status ∧ sval t.pc = sval s.pc + 1 := by
  refine ⟨_, h.runs.exec_eq, h.runs.completed, h.runs.status_eq, ?_⟩
  rw [h.runs.pc_eq, hc, ← s.advance_pc, if_neg Bool.false_ne_true, State.sval_advance_pc (by omega)]

end

/-- Settles O26: each clause is a branch whose condition is decided. -/
theorem takenBranchLandsExactly : Obligations.TakenBranchLandsExactly := by
  intro a0 a1 off s h0 h4096 hoff1 hoff2
  refine ⟨fun heq => ?_, fun hne => ?_, fun hlt => ?_, fun hle => ?_, fun hz => ?_, fun hz => ?_, fun hsp hne => ?_,
    fun hsp heq => ?_⟩
  · exact (BranchOn.beq a0 a1).lands (decide_eq_true heq) h0 h4096 hoff1 hoff2
  · exact (BranchOn.beq a0 a1).falls_through (decide_eq_false hne) h4096
  · exact (BranchOn.jma a0 a1).lands (decide_eq_true hlt) h0 h4096 hoff1 hoff2
  · exact (BranchOn.jma a0 a1).falls_through (decide_eq_false (Nat.not_lt.2 hle)) h4096
  · exact BranchOn.je.lands hz h0 h4096 hoff1 hoff2
  · exact BranchOn.je.falls_through hz h4096
  · exact (BranchOn.jmne a0 a1 hsp).lands (decide_eq_true hne) h0 h4096 hoff1 hoff2
  · exact (BranchOn.jmne a0 a1 hsp).falls_through (decide_eq_false (not_not.2 heq)) h4096

/-- Settles O29: with two live entries JMNE is a branch that has moved sp; with fewer its body faults first. -/
theorem jmnePopsTwoAndBranches : Obligations.JmnePopsTwoAndBranches := by
  intro a0 a1 off s
  constructor
  · intro hsp
    have hjmne := (BranchOn.jmne (off := off) a0 a1 hsp).runs
    refine ⟨_, hjmne.exec_eq, hjmne.completed, ?_, ?_, hjmne.entries_kept, hjmne.regs_kept, hjmne.z_eq, hjmne.mem_kept,
      hjmne.status_eq⟩
    · simp [effectOf]
    · simpa only [decide_eq_true_eq] using hjmne.pc_eq
  · intro hsp
    exact exec_of_fault (if_pos hsp)

/-- Settles O25: three branches that leave sp alone. -/
theorem branchesAddTheOffsetWhenTaken : Obligations.BranchesAddTheOffsetWhenTaken := by
  intro a0 a1 off s
  have hbeq := (BranchOn.beq (s := s) (off := off) a0 a1).runs
  have hjma := (BranchOn.jma (s := s) (off := off) a0 a1).runs
  have hje := (BranchOn.je (s := s) (off := off)).runs
  refine ⟨⟨_, hbeq.exec_eq, hbeq.completed, ?_, hbeq.regs_kept, hbeq.z_eq, ⟨?_, hbeq.entries_kept⟩, hbeq.mem_kept,
      hbeq.status_eq⟩,
    ⟨_, hjma.exec_eq, hjma.completed, hjma.pc_eq, hjma.regs_kept, hjma.z_eq, ⟨?_, hjma.entries_kept⟩, hjma.mem_kept,
      hjma.status_eq⟩,
    ⟨_, hje.exec_eq, hje.completed, hje.pc_eq, hje.regs_kept, hje.z_eq, ⟨?_, hje.entries_kept⟩, hje.mem_kept,
      hje.status_eq⟩⟩
  · simpa only [decide_eq_true_eq] using hbeq.pc_eq
  · simp [effectOf]
  · simp [effectOf]
  · simp [effectOf]

/-! ### JALR, HALT, NOOP -/

/-- JALR's jump reads its register after the link is written (R109, D16). -/
theorem effectOf_jalr_pc (a0 a1 : Reg) (t : State) :
    (effectOf (.jalr a0 a1) t).pc = if a0 = 0 then 0 else if a1 = a0 then t.pc else t.getReg a0 := by
  rw [effectOf, State.setPc_pc, State.getReg_setReg]
  simp only [eq_comm (a := a0) (b := a1)]

/-- Settles O27: the link and the jump are all that JALR writes. -/
theorem jalrLinksThenJumps : Obligations.JalrLinksThenJumps := by
  intro a0 a1 s
  have hexec : exec (.jalr a0 a1) s = .next (effectOf (.jalr a0 a1) s.advance).complete := exec_of_no_fault rfl
  refine ⟨_, hexec, completed_effectOf _ s, ?_, fun h0 => ?_, registersOutsideTheTableAreKept _ s _ hexec, rfl,
    ⟨rfl, fun _ => rfl⟩, fun _ => rfl, rfl⟩
  · rw [State.complete_pc, effectOf_jalr_pc, s.advance_pc, State.getReg_advance]
  · rw [effectOf, State.setPc_setReg, State.getReg_complete_setReg _ h0, s.advance_pc]

/-- Settles O28: HALT's effect is one write of the status, and NOOP's is none. -/
theorem haltHaltsAndNoopDoesNothing : Obligations.HaltHaltsAndNoopDoesNothing := by
  intro s
  have hhalt : exec .halt s = .next (effectOf .halt s.advance).complete := exec_of_no_fault rfl
  have hnoop : exec .noop s = .next (effectOf .noop s.advance).complete := exec_of_no_fault rfl
  exact ⟨⟨_, hhalt, completed_effectOf _ s, s.advance_pc, rfl, registersOutsideTheTableAreKept _ s _ hhalt, rfl,
      ⟨rfl, fun _ => rfl⟩, fun _ => rfl⟩,
    ⟨_, hnoop, completed_effectOf _ s, s.advance_pc, rfl, registersOutsideTheTableAreKept _ s _ hnoop, rfl,
      ⟨rfl, fun _ => rfl⟩, fun _ => rfl⟩⟩

end Sys2Proof.Machine
end

section
/-! PROOFS. The stack family of 44_stack.md: a frame shared by its four instructions, IDIV's quotient by magnitude and sign,
and what each of the four leaves on the stack. -/

namespace Sys2Proof.Machine

/-! ### The frame of the stack family -/

/-- The four instructions of the stack family (44_stack.md). -/
inductive StackInstr : Instr → Prop where
  | idiv : StackInstr .idiv
  | neg : StackInstr .neg
  | pop (a0 : Reg) : StackInstr (.pop a0)
  | push (a0 : Reg) : StackInstr (.push a0)

/-- `i` takes `s` to `t` as an instruction of the stack family that raises no fault does: it completes, goes on to the next
word, and touches neither memory, nor the status, nor a register it does not write. -/
structure StackRuns (i : Instr) (s t : State) : Prop where
  exec_eq : exec i s = .next t
  completed : Completed s t
  pc_eq : t.pc = s.pc + 1
  regs_kept : RegsKeptBut (writtenRegs i) s t
  mem_kept : MemKept s t
  status_eq : t.status = s.status

/-- The effects of the family are writes of the stack, its pointer, a register and Z alone. -/
theorem StackInstr.runs {i : Instr} (hi : StackInstr i) {s : State} (hfault : bodyFault i s = none) :
    StackRuns i s (effectOf i s.advance).complete := by
  have hexec : exec i s = .next (effectOf i s.advance).complete := exec_of_no_fault hfault
  have hpc : (effectOf i s.advance).pc = s.advance.pc := by cases hi <;> rfl
  have hmem : (effectOf i s.advance).mem = s.mem := by cases hi <;> rfl
  have hstatus : (effectOf i s.advance).status = s.status := by cases hi <;> rfl
  exact {
    exec_eq := hexec
    completed := completed_effectOf i s
    pc_eq := hpc.trans s.advance_pc
    regs_kept := registersOutsideTheTableAreKept i s _ hexec
    mem_kept := fun a => congrArg (Memory.read · a) hmem
    status_eq := hstatus }

/-! ### PUSH, POP, and one after the other -/

/-- Settles O30: by whether the stack is full. -/
theorem pushStoresOrOverflows : Obligations.PushStoresOrOverflows := by
  intro a0 s hle
  refine ⟨fun hpos => ?_, fun hfull => exec_of_fault (if_pos hfull)⟩
  have hroom : bodyFault (.push a0) s = none := if_neg (Nat.pos_iff_ne_zero.1 hpos)
  have hpush := (StackInstr.push a0).runs hroom
  have hslot : s.sp - 1 < 32 := by omega
  exact ⟨_, hpush.exec_eq, hpush.completed, hpush.pc_eq, rfl, State.getStk_setStk_self _ _ _ hslot,
    fun j hj => State.getStk_setStk_ne _ _ j _ hj, hpush.regs_kept, rfl, hpush.mem_kept, hpush.status_eq⟩

/-- Settles O31: by whether the stack is empty; a pop writes no entry. -/
theorem popLoadsOrUnderflows : Obligations.PopLoadsOrUnderflows := by
  intro a0 s _
  refine ⟨fun hlt => ?_, fun hempty => exec_of_fault (if_pos hempty.ge)⟩
  have hlive : bodyFault (.pop a0) s = none := if_neg (Nat.not_le.2 hlt)
  have hpop := (StackInstr.pop a0).runs hlive
  exact ⟨_, hpop.exec_eq, hpop.completed, hpop.pc_eq, rfl, fun h0 => State.getReg_complete_setReg _ h0 _, fun _ => rfl,
    hpop.regs_kept, rfl, hpop.mem_kept, hpop.status_eq⟩

/-- Settles O34: the pop reads the entry the push wrote, which lies below every entry that was live. -/
theorem popAfterPushGivesThePushedWord : Obligations.PopAfterPushGivesThePushedWord := by
  intro a b s hpos hle
  obtain ⟨t, hpush, -, -, htsp, htop, htkept, -⟩ := (pushStoresOrOverflows a s hle).1 hpos
  obtain ⟨u, hpop, -, -, husp, hread, hukept, -⟩ := (popLoadsOrUnderflows b t (by omega)).1 (by omega)
  refine ⟨t, u, hpush, hpop, fun h0 => ?_, by omega, fun j hj => ?_⟩
  · rw [hread h0, htsp, htop]
  · rw [hukept, htkept j (by omega)]

/-! ### NEG -/

/-- Settles O32: by whether the stack is empty; `negW_eq` gives the wrap (D4). -/
theorem negNegatesTheTop : Obligations.NegNegatesTheTop := by
  intro s _
  refine ⟨fun hlt => ?_, fun hempty => exec_of_fault (if_pos hempty.ge)⟩
  have hlive : bodyFault .neg s = none := if_neg (Nat.not_le.2 hlt)
  have hneg := StackInstr.neg.runs hlive
  have htop : (effectOf .neg s.advance).complete.getStk s.sp = negW (s.getStk s.sp) :=
    State.getStk_setStk_self _ _ _ hlt
  refine ⟨_, hneg.exec_eq, hneg.completed, hneg.pc_eq, rfl, ?_, ?_, fun j hj => State.getStk_setStk_ne _ _ j _ hj,
    hneg.regs_kept, hneg.mem_kept, hneg.status_eq⟩
  · rw [htop, negW_eq, BitVec.toNat_neg]
  · rw [htop]
    exact decide_eq_true_iff

/-! ### IDIV -/

/-- A word is 0 exactly when its signed value is. -/
theorem sval_eq_zero_iff (w : Word) : sval w = 0 ↔ w = 0 :=
  BitVec.toInt_inj (y := 0)

/-- IDIV's quotient is BitVec's signed division (R8, R117). -/
theorem tdivW_eq (n d : Word) : tdivW n d = n.sdiv d := by
  apply BitVec.eq_of_toInt_eq
  rw [BitVec.toInt_sdiv]
  exact BitVec.toInt_ofInt ..

/-- Outside the one overflowing case (D6) the quotient does not wrap. -/
theorem sval_tdivW {n d : Word} (h : ¬ (sval n = -2147483648 ∧ sval d = -1)) :
    sval (tdivW n d) = (sval n).tdiv (sval d) := by
  rw [tdivW_eq]
  refine BitVec.toInt_sdiv_of_ne_or_ne n d (not_and_or.1 ?_)
  rintro ⟨rfl, rfl⟩
  exact h ⟨rfl, rfl⟩

/-- Rounding toward zero turns no positive quotient negative; the exact quotient has the sign of the product. -/
theorem tdiv_nonneg_of_mul_nonneg {n d : Int} (h : 0 ≤ n * d) : 0 ≤ n.tdiv d := by
  obtain ⟨hn, hd⟩ | ⟨hn, hd⟩ := mul_nonneg_iff.1 h
  · exact Int.tdiv_nonneg hn hd
  · exact Int.tdiv_nonneg_of_nonpos_of_nonpos hn hd

/-- The same for a quotient that is not positive, by negating the dividend. -/
theorem tdiv_nonpos_of_mul_nonpos {n d : Int} (h : n * d ≤ 0) : n.tdiv d ≤ 0 := by
  have hneg : 0 ≤ (-n).tdiv d := tdiv_nonneg_of_mul_nonneg (by rw [Int.neg_mul]; omega)
  rw [Int.neg_tdiv] at hneg
  omega

/-- With two live entries IDIV tests the divisor, then the overflow (R117, D9). -/
theorem bodyFault_idiv_of_two_live {s : State} (h : s.sp ≤ 30) : bodyFault .idiv s =
    if sval (s.getStk s.sp) = 0 then some .divByZero
    else if sval (s.getStk (s.sp + 1)) = -2147483648 ∧ sval (s.getStk s.sp) = -1 then some .divOverflow
    else none := by
  rw [bodyFault, if_neg (by omega)]
  simp only [sval_eq_zero_iff]

/-- Settles O33: by the fault tests in their order; where none holds, by magnitude and sign of `Int.tdiv`. -/
theorem idivDividesOrFaults : Obligations.IdivDividesOrFaults := by
  rintro s d n rfl rfl
  refine ⟨fun hfew => exec_of_fault (if_pos hfew), fun htwo hd => exec_of_fault ?_,
    fun htwo hn hd => exec_of_fault ?_, fun htwo hd hfits => ?_⟩
  · rw [bodyFault_idiv_of_two_live htwo, if_pos hd]
  · rw [bodyFault_idiv_of_two_live htwo, if_neg (by omega), if_pos ⟨hn, hd⟩]
  · have hok : bodyFault .idiv s = none := by rw [bodyFault_idiv_of_two_live htwo, if_neg hd, if_neg hfits]
    have hidiv := StackInstr.idiv.runs hok
    have hslot : s.sp + 1 < 32 := by omega
    have htop : (effectOf .idiv s.advance).complete.getStk (s.sp + 1) =
        tdivW (s.getStk (s.sp + 1)) (s.getStk s.sp) := State.getStk_setStk_self _ _ _ hslot
    refine ⟨_, hidiv.exec_eq, hidiv.completed, hidiv.pc_eq, rfl, ?_, ?_, ?_,
      fun j hj => State.getStk_setStk_ne _ _ j _ hj, hidiv.regs_kept, rfl, hidiv.mem_kept, hidiv.status_eq⟩
    all_goals rw [htop, sval_tdivW hfits]
    · exact Int.natAbs_tdiv _ _
    · exact tdiv_nonneg_of_mul_nonneg
    · exact tdiv_nonpos_of_mul_nonpos

end Sys2Proof.Machine
end

section
/-! PROOFS. The fault table of 60_exceptions.md: which of the three stages of a step (PC check, decode, body) raised a
recorded cause, and for the body the row of the table it comes from. -/

namespace Sys2Proof.Machine

/-! ### The stages of a step, in the order of R123 -/

/-- The two ways a fetch fails, in their order: the PC check, then the decode (R84, R86). -/
theorem State.fetchInstr_error {s : State} {c : FaultCause} (h : s.fetchInstr = .error c) :
    (c = .badPc ∧ ¬ (0 ≤ sval s.pc ∧ sval s.pc < 4096)) ∨
    ((0 ≤ sval s.pc ∧ sval s.pc < 4096) ∧ c = .illegalOpcode ∧
      20 < (s.mem.read (sval s.pc).toNat).toNat / 2097152) := by
  obtain ⟨hpc, hf⟩ | ⟨hpc, hf⟩ := s.fetch_cases
  · rw [State.fetchInstr_of_fetch hf] at h
    obtain ⟨hop, hdec⟩ | ⟨-, i, hdec, -⟩ := decode_cases (s.mem.read (sval s.pc).toNat)
    · rw [hdec] at h
      exact .inr ⟨hpc, (Except.error.inj h).symm, hop⟩
    · rw [hdec] at h
      cases h
  · rw [State.fetchInstr, hf] at h
    exact .inl ⟨(Except.error.inj h).symm, hpc⟩

/-- A fetched instruction has passed both checks: it is the word at a pc in range, decoded. -/
theorem State.fetchInstr_ok {s : State} {i : Instr} (h : s.fetchInstr = .ok i) :
    (0 ≤ sval s.pc ∧ sval s.pc < 4096) ∧ decode (s.mem.read (sval s.pc).toNat) = .ok i := by
  obtain ⟨hpc, hf⟩ | ⟨-, hf⟩ := s.fetch_cases
  · rw [State.fetchInstr_of_fetch hf] at h
    refine ⟨hpc, ?_⟩
    split at h
    · next j hdec => rw [hdec, Except.ok.inj h]
    · cases h
  · rw [State.fetchInstr, hf] at h
    cases h

/-- A step that becomes FAULTED records the cause of the fetch, or that of the fetched instruction's body. -/
theorem cause_of_step {s t : State} (hrun : s.status = .running) (hstep : step s = .next t)
    (hfault : t.status = .faulted) :
    s.fetchInstr = .error t.cause ∨ ∃ i, s.fetchInstr = .ok i ∧ bodyFault i s = some t.cause := by
  obtain ⟨c, hf, hs⟩ | ⟨i, hf, hs⟩ := step_running_cases hrun
  · obtain rfl := Host.Outcome.next.inj (hstep.symm.trans hs)
    exact .inl hf
  · obtain ⟨-, rfl⟩ | ⟨c, hc, rfl⟩ := exec_next_cases (hs.symm.trans hstep)
    · exact absurd hfault (effectOf_complete_not_faulted i hrun)
    · exact .inr ⟨i, hf, hc⟩

/-! ### The rows of the body's own faults -/

/-- The rows of R122's table from MEM_OUT_OF_RANGE on: the instruction `i` raises `c` in the state `s`. -/
def BodyRow (s : State) (i : Instr) (c : FaultCause) : Prop :=
  (c = .memOutOfRange ∧ ∃ a b off, (i = .lw a b off ∨ i = .sw a b off) ∧
    (sval (s.getReg a) + off < 0 ∨ 4096 ≤ sval (s.getReg a) + off)) ∨
  (c = .stackOverflow ∧ s.sp = 0 ∧ ∃ a, i = .push a) ∨
  (c = .stackUnderflow ∧
    (s.sp = 32 ∧ (i = .neg ∨ ∃ a, i = .pop a) ∨ 31 ≤ s.sp ∧ (i = .idiv ∨ ∃ a b off, i = .jmne a b off))) ∨
  (c = .divByZero ∧ i = .idiv ∧ s.sp ≤ 30 ∧ s.getStk s.sp = 0) ∨
  (c = .divOverflow ∧ i = .idiv ∧ s.sp ≤ 30 ∧ sval (s.getStk s.sp) = -1 ∧
    sval (s.getStk (s.sp + 1)) = -2147483648)

/-- A fault test that is a single condition. -/
theorem of_ite_none_eq_some {p : Prop} [Decidable p] {c d : FaultCause} (h : (if p then some d else none) = some c) :
    p ∧ c = d := by
  obtain ⟨hp, hd⟩ := Option.ite_none_right_eq_some.1 h
  exact ⟨hp, (Option.some.inj hd).symm⟩

/-- A store faults only by its address (R37, R106). -/
theorem bodyFault_sw_eq_some {a0 a1 : Reg} {off : Int} {s : State} {c : FaultCause}
    (h : bodyFault (.sw a0 a1 off) s = some c) :
    c = .memOutOfRange ∧ (sval (s.getReg a0) + off < 0 ∨ 4096 ≤ sval (s.getReg a0) + off) := by
  by_cases hin : 0 ≤ s.effectiveAddress a0 off ∧ s.effectiveAddress a0 off < 4096
  · rw [bodyFault_sw_of_inMemory a1 hin] at h
    cases h
  · have hout : s.effectiveAddress a0 off < 0 ∨ 4096 ≤ s.effectiveAddress a0 off := by omega
    rw [bodyFault_sw_of_outside a1 hout] at h
    exact ⟨(Option.some.inj h).symm, hout⟩

/-- IDIV faults by its three tests, each reached only past those before it (R117, R123, D9). -/
theorem bodyFault_idiv_eq_some {s : State} {c : FaultCause} (h : bodyFault .idiv s = some c) :
    (c = .stackUnderflow ∧ 31 ≤ s.sp) ∨ (c = .divByZero ∧ s.sp ≤ 30 ∧ s.getStk s.sp = 0) ∨
    (c = .divOverflow ∧ s.sp ≤ 30 ∧ sval (s.getStk s.sp) = -1 ∧ sval (s.getStk (s.sp + 1)) = -2147483648) := by
  rw [bodyFault] at h
  split_ifs at h with hfew hzero hover
  · exact .inl ⟨(Option.some.inj h).symm, hfew⟩
  · exact .inr (.inl ⟨(Option.some.inj h).symm, by omega, hzero⟩)
  · exact .inr (.inr ⟨(Option.some.inj h).symm, by omega, hover.2, hover.1⟩)

/-- Every fault of a body is a row of the table; sp is at most 32, so an empty stack has sp = 32 (R26). -/
theorem bodyRow_of_bodyFault {i : Instr} {s : State} {c : FaultCause} (hsp : s.sp ≤ 32)
    (h : bodyFault i s = some c) : BodyRow s i c := by
  cases i with
  | lw a b off =>
    obtain ⟨hc, hout⟩ := bodyFault_sw_eq_some ((bodyFault_lw_eq_sw a b off s).symm.trans h)
    exact .inl ⟨hc, a, b, off, .inl rfl, hout⟩
  | sw a b off =>
    obtain ⟨hc, hout⟩ := bodyFault_sw_eq_some h
    exact .inl ⟨hc, a, b, off, .inr rfl, hout⟩
  | push a =>
    obtain ⟨hfull, hc⟩ := of_ite_none_eq_some h
    exact .inr (.inl ⟨hc, hfull, a, rfl⟩)
  | neg =>
    obtain ⟨hempty, hc⟩ := of_ite_none_eq_some h
    exact .inr (.inr (.inl ⟨hc, .inl ⟨hsp.antisymm hempty, .inl rfl⟩⟩))
  | pop a =>
    obtain ⟨hempty, hc⟩ := of_ite_none_eq_some h
    exact .inr (.inr (.inl ⟨hc, .inl ⟨hsp.antisymm hempty, .inr ⟨a, rfl⟩⟩⟩))
  | jmne a b off =>
    obtain ⟨hfew, hc⟩ := of_ite_none_eq_some h
    exact .inr (.inr (.inl ⟨hc, .inr ⟨hfew, .inr ⟨a, b, off, rfl⟩⟩⟩))
  | idiv =>
    obtain ⟨hc, hfew⟩ | ⟨hc, hzero⟩ | ⟨hc, hover⟩ := bodyFault_idiv_eq_some h
    · exact .inr (.inr (.inl ⟨hc, .inr ⟨hfew, .inl rfl⟩⟩))
    · exact .inr (.inr (.inr (.inl ⟨hc, rfl, hzero⟩)))
    · exact .inr (.inr (.inr (.inr ⟨hc, rfl, hover⟩)))
  | _ => cases h

/-- Settles O15: by the stage that raised the cause; the body's rows need the invariant's bound on sp. -/
theorem faultCausesAreTheTable : Obligations.FaultCausesAreTheTable := by
  intro s t hinv hrun hstep hfault
  obtain hf | ⟨i, hf, hbody⟩ := cause_of_step hrun hstep hfault
  · obtain ⟨hc, hpc⟩ | ⟨hpc, hillegal⟩ := State.fetchInstr_error hf
    · exact .inl ⟨hc, by omega⟩
    · exact .inr ⟨hpc, .inl hillegal⟩
  · obtain ⟨hpc, hdec⟩ := State.fetchInstr_ok hf
    exact .inr ⟨hpc, .inr ⟨i, hdec, bodyRow_of_bodyFault hinv.sp_le hbody⟩⟩

end Sys2Proof.Machine
end

section
/-! PROOFS. The host's side of 70_reset_and_hazards.md (R135 to R140): the reset state element by element, one equation
for each branch of each host operation, and what a load and a boot then give; and the word that `withFetchWord` places. -/

namespace Sys2Proof.Machine

/-! ### The reset state -/

@[simp] theorem State.getReg_reset (r : Reg) : State.reset.getReg r = 0 :=
  Vector.getElem_replicate r.isLt

@[simp] theorem State.getStk_reset (j : Nat) : State.reset.getStk j = 0 := by
  by_cases hj : j < 32
  · simp [State.getStk, State.reset, hj]
  · exact State.reset.getStk_of_le (Nat.le_of_not_lt hj)

/-- Settles O44: the registers and the stack entries by their index, the other elements as the table writes them. -/
theorem resetValues : Obligations.ResetValues :=
  fun _ => ⟨rfl, rfl, State.getReg_reset, rfl, rfl, State.getStk_reset, fun _ => rfl, rfl, rfl, rfl, rfl⟩

/-- Settles O39. -/
theorem resetMeetsTheInvariant : Obligations.ResetMeetsTheInvariant := reset_inv

/-- Settles O41, by cases on the operation. -/
theorem hostOperationsKeepTheInvariant : Obligations.HostOperationsKeepTheInvariant :=
  fun op _ => hostOp_keeps_inv op

/-! ### Each host operation, branch by branch -/

section
variable {s : State}

theorem State.load_of_fits {ws : List Word} (hidle : s.status = .idle) (hlen : ws.length ≤ 4096) :
    s.load ws = ({ s with mem := s.mem.writeAll 0 ws }, .done) := by
  rw [State.load, if_pos hidle, if_pos hlen]

theorem State.load_of_too_long {ws : List Word} (hidle : s.status = .idle) (hlen : 4096 < ws.length) :
    s.load ws = (s, .loadError) := by
  rw [State.load, if_pos hidle, if_neg (Nat.not_le.2 hlen)]

theorem State.load_of_not_idle (h : s.status ≠ .idle) (ws : List Word) : s.load ws = (s, .ignored) :=
  if_neg h

theorem State.loadText_of_not_idle (h : s.status ≠ .idle) (lines : List Text) : s.loadText lines = (s, .ignored) := by
  unfold State.loadText
  split
  · exact State.load_of_not_idle h _
  · exact if_neg h

theorem State.preload_of_idle {r : Reg} (hidle : s.status = .idle) (hr : r ≠ 0) (v : Word) :
    s.preload r v = (s.setReg r v, .done) :=
  if_pos ⟨hidle, hr⟩

theorem State.preload_of_not_idle (h : s.status ≠ .idle) (r : Reg) (v : Word) : s.preload r v = (s, .ignored) :=
  if_neg fun hpre => h hpre.1

theorem State.preload_zero (s : State) (v : Word) : s.preload 0 v = (s, .ignored) :=
  if_neg fun hpre => hpre.2 rfl

theorem State.start_of_idle (hidle : s.status = .idle) : s.start = (s.setStatus .running, .done) :=
  if_pos hidle

theorem State.start_of_not_idle (h : s.status ≠ .idle) : s.start = (s, .ignored) :=
  if_neg h

/-- Outside IDLE the host can only reset (R136 to R140, log 16). -/
theorem hostOp_of_not_idle {op : HostOp} (h : s.status ≠ .idle) (hop : op ≠ .reset) : hostOp op s = (s, .ignored) := by
  cases op with
  | reset => exact absurd rfl hop
  | load ws => exact State.load_of_not_idle h ws
  | loadText lines => exact State.loadText_of_not_idle h lines
  | preload r v => exact State.preload_of_not_idle h r v
  | start => exact State.start_of_not_idle h

end

/-- Settles O47: each operation but reset tests for IDLE, and preload for r0 too. -/
theorem hostWritesOnlyInIdle : Obligations.HostWritesOnlyInIdle := by
  refine ⟨fun _ _ h hop => hostOp_of_not_idle h hop, State.preload_zero, fun s r q v hidle hr => ?_⟩
  rw [hostOp, State.preload_of_idle hidle hr]
  exact s.getReg_setReg r q v

/-! ### A load and a boot -/

/-- An address reads as the word loaded there, if the program is that long, else as before (R136). -/
theorem Memory.read_writeAll_zero {m : Memory} {ws : List Word} (hm : m.wf = true) (hlen : ws.length ≤ 4096) (a : Nat) :
    (m.writeAll 0 ws).read a = (ws[a]?).getD (m.read a) := by
  rw [Memory.read_writeAll ws hm (by omega)]
  by_cases ha : a < ws.length <;> simp [ha]

/-- Settles O45: the load's two branches in IDLE, and what the stored words read as. -/
theorem loadPlacesTheWords : Obligations.LoadPlacesTheWords := by
  intro s ws hidle hm
  refine ⟨fun hlen => ?_, State.load_of_too_long hidle⟩
  rw [hostOp, State.load_of_fits hidle hlen]
  exact ⟨rfl, Memory.read_writeAll_zero hm hlen, rfl⟩

/-- The state the boot sequence of R139 leaves: reset with the words, the register and the status written. -/
theorem hostOps_boot (s : State) {ws : List Word} {r : Reg} (v : Word) (hlen : ws.length ≤ 4096) (hr : r ≠ 0) :
    hostOps [.reset, .load ws, .preload r v, .start] s =
      (State.setReg { State.reset with mem := State.reset.mem.writeAll 0 ws } r v).setStatus .running := by
  simp only [hostOps, List.foldl_cons, List.foldl_nil, hostOp, State.hostReset]
  rw [State.load_of_fits rfl hlen, State.preload_of_idle rfl hr, State.start_of_idle rfl]

/-- Settles O48: the booted state's elements are reset's but for the three that were written; it meets the invariant
because every host operation keeps it from reset on. -/
theorem bootGivesARunningBlock : Obligations.BootGivesARunningBlock := by
  intro s ws r v hlen hr
  have hboot := hostOps_boot s v hlen hr
  have hinv : (hostOps [.load ws, .preload r v, .start] State.reset).Inv := hostOps_keep_inv _ reset_inv
  refine ⟨_, hboot, rfl, rfl, fun q => ?_, Memory.read_writeAll_zero State.reset_mem_wf hlen, rfl, rfl, rfl, rfl,
    hboot ▸ hinv⟩
  rw [State.getReg_setStatus, State.getReg_setReg]
  exact congrArg (ite (q = r) v) (State.getReg_reset q)

/-! ### The placed word -/

/-- `placeWord` leaves a pc from which a word can be fetched (log 3). -/
theorem State.placeWord_pc_range (s : State) (w : Word) :
    0 ≤ sval (s.placeWord w).pc ∧ sval (s.placeWord w).pc < 4096 := by
  simp only [State.placeWord]
  split
  · next h => exact (inMemory_iff _).1 h
  · decide

/-- The placed word is the one at the pc of a RUNNING state, a zero word included. -/
theorem fetches_placeWord {s : State} (hm : s.mem.wf = true) (w : Word) : Fetches (s.placeWord w) w := by
  obtain ⟨h0, h4096⟩ := s.placeWord_pc_range w
  exact ⟨rfl, h0, h4096, Memory.read_write_same _ w hm⟩

theorem decode_of_decodeTableWord {n w : Nat} {i : Instr} (h : decodeTableWord n w = some i) :
    decode (BitVec.ofNat 32 (w % 2 ^ n)) = .ok i := by
  unfold decodeTableWord at h
  split at h
  · next j hdec => exact hdec.trans (congrArg Except.ok (Option.some.inj h))
  · cases h

/-- Settles O9: the placed word is fetched, and decodes as the table word does. -/
theorem placedWordIsRunNext : Obligations.PlacedWordIsRunNext :=
  fun _ _ _ hm hw => (fetches_placeWord hm _).step_eq_exec (decode_of_decodeTableWord hw)

end Sys2Proof.Machine
end
